-- ==== Sys2Proof/Word.lean ====
section
/-!
DEFINITION. The block's words: the widths of spec/00_scope.md rule R2 and spec/10_state.md rule R10, and nothing else.
-/

namespace Sys2Proof

/-- The 36 input pins as one word, `{rst, tick, wr_en, wr_axis, wr_data}` (30_encoding R51). -/
abbrev InputWord := BitVec 36

/-- A remaining-steps counter and the move operand: `int32` in two's complement (10_state R11, 30_encoding R52, log 7). -/
abbrev Counter := BitVec 32

/-- A phase index: 3 bits, unsigned, so every storable value is a valid table address (10_state R13). -/
abbrev PhaseIndex := BitVec 3

/-- A phase pattern: bit `k` is element `ek`, which drives logical line `k` (00_scope section 5, log 7). -/
abbrev Pattern := BitVec 4

/-- The contents of a phase ROM: eight patterns by 3-bit address (40_phase_table R70). -/
abbrev PhaseTable := PhaseIndex → Pattern

end Sys2Proof
end

