-- ==== Sys2Proof/Config.lean ====
section
/-!
DEFINITION. What an implementation fixes (spec/00_scope.md rules R2, R3): the motors and axes, the phase table and the value of the
lines after reset. The last two are OPEN in the spec and are opaque here: no proof can see a value of them.
-/

namespace Sys2Proof

/-- The two axes (00_scope R2): `h` = 0 drives motor 0, `v` = 1 drives motors 1 and 2. -/
inductive Axis where
  | h
  | v
deriving DecidableEq, Repr

/-- The three motors (00_scope R1): ids 0, 1, 2. -/
inductive Motor where
  | horizontal
  | verticalLeft
  | verticalRight
deriving DecidableEq, Repr

/-- The axis whose counter drives a motor (00_scope R2, 10_state R12). -/
def Motor.axis : Motor → Axis
  | .horizontal => .h
  | .verticalLeft => .v
  | .verticalRight => .v

/-- The motors in the order of their ids, the list order of the events of one edge (44_pin_emission R125, log 6). -/
def Motor.all : List Motor := [.horizontal, .verticalLeft, .verticalRight]

/-- `PT`, the contents of the phase ROM: the spec leaves them open (40_phase_table R72, R73), so a statement holds for every table.
DESIGN CHOICE, log 1: a free value; safe. -/
opaque Config.phaseTable : PhaseTable

/-- `COIL_RESET[m]`, drawn anew at each reset: the n-th draw for motor m is unconstrained (10_state R21, 70_reset R160).
DESIGN CHOICE, log 2: a free value; safe. -/
opaque Config.coilReset : Nat → Motor → Pattern

/-- The word on the input pins at the n-th edge for which the state names none: what the outside world drives is open and goes on for as
long as it likes (70_reset R166, 92 D21). DESIGN CHOICE, log 4: a free value; safe. -/
opaque Config.undrivenWord : Nat → InputWord

/-- The spec's default phase table (40_phase_table R72, "from general knowledge, not in source"): used by the tests that check the
spec's vectors, by no meaning. PRESUMED, log 11. -/
def Config.defaultTable : PhaseTable := fun i =>
  match i.toNat with
  | 0 => 0x1#4
  | 1 => 0x3#4
  | 2 => 0x2#4
  | 3 => 0x6#4
  | 4 => 0x4#4
  | 5 => 0xC#4
  | 6 => 0x8#4
  | _ => 0x9#4

end Sys2Proof
end

