-- ==== Sys2Proof/Machine/State.lean ====
section
/-!
DEFINITION. The state of the block (spec/10_state.md rule R10), its accessors by axis and motor, and the state after reset (rules R21, R160).
-/

namespace Sys2Proof.Machine

/-- The eleven registers of 10_state R10, 88 bits, and three fields of the model's own (`inputs`, `undriven`, `resets`). -/
structure State where
  /-- `rem[H]`, R11. -/
  remH : Counter
  /-- `rem[V]`, R12: one counter for motors 1 and 2. -/
  remV : Counter
  /-- `idx[0]`, R13. -/
  idx0 : PhaseIndex
  /-- `idx[1]`, R13. -/
  idx1 : PhaseIndex
  /-- `idx[2]`, R13. -/
  idx2 : PhaseIndex
  /-- `coil[0]`, R14. -/
  coil0 : Pattern
  /-- `coil[1]`, R14. -/
  coil1 : Pattern
  /-- `coil[2]`, R14. -/
  coil2 : Pattern
  /-- `emit[0]`, R15. -/
  emit0 : Bool
  /-- `emit[1]`, R15. -/
  emit1 : Bool
  /-- `emit[2]`, R15. -/
  emit2 : Bool
  /-- The words the outside world drives on the input pins at the coming edges, oldest first: the model's own field, log 3. -/
  inputs : List InputWord
  /-- How many edges have passed at which `inputs` named no word: numbers the draws of `Config.undrivenWord`; the model's own field, log 4. -/
  undriven : Nat
  /-- How many RESET operations have been performed: numbers the draws of `Config.coilReset`; the model's own field, log 2. -/
  resets : Nat
deriving DecidableEq, Repr

/-- The reasons for a fault: NONE. 60_exceptions R130: the step "never faults, never refuses, and is never stuck". The type is empty, so
no step can answer a fault (log 8). -/
inductive Fault where
deriving DecidableEq, Repr

/-- The reasons for a refusal. -/
inductive Refusal where
  /-- Raised by an arm of `exec` whose instruction has no meaning yet; no arm raises it now. Safe: the model stops. -/
  | notModelled (mnemonic : String)
deriving DecidableEq, Repr

/-- The answer of one operation. -/
abbrev Result := Host.Outcome State Fault Refusal

/-- 10_state R21, 70_reset R160: the state right after reset; the lines hold the first draw of `COIL_RESET` (log 2), and no word to
come is named (log 3). -/
def State.reset : State where
  remH := 0
  remV := 0
  idx0 := 0
  idx1 := 0
  idx2 := 0
  coil0 := Config.coilReset 0 .horizontal
  coil1 := Config.coilReset 0 .verticalLeft
  coil2 := Config.coilReset 0 .verticalRight
  emit0 := false
  emit1 := false
  emit2 := false
  inputs := []
  undriven := 0
  resets := 0

end Sys2Proof.Machine
end

