-- ==== Sys2Proof/Machine/Flags.lean ====
section
/-!
DEFINITION. The two derived signals of an axis (spec/10_state.md rule R16) and the arithmetic of a step (spec/42_tick.md rules R93, R95, R96).
The block has no flag register (R16).
-/

namespace Sys2Proof.Machine

/-- `idle[a] = (rem[a] == 0)` (10_state R16). -/
def idle (r : Counter) : Bool := r == 0#32

/-- `dir[a] = +1 if rem[a] > 0 else -1`, meaningful when the axis is not idle (10_state R16, 42_tick R93). -/
def dir (r : Counter) : Int := if 0 < r.toInt then 1 else -1

/-- `sgn(v)` (00_scope section 5). -/
def sgn (v : Int) : Int := if 0 < v then 1 else if v < 0 then -1 else 0

/-- `mod8(i)`: the mathematical remainder, non-negative for every integer (00_scope section 5, 40_phase_table R74). -/
def mod8 (i : Int) : PhaseIndex := BitVec.ofInt 3 (i % 8)

/-- `(phase_index + 8 + direction) mod 8` (42_tick R92, R96). -/
def nextIndex (i : PhaseIndex) (d : Int) : PhaseIndex := mod8 ((i.toNat : Int) + 8 + d)

/-- `rem[a] - d` with `d = dir[a]` (42_tick R95). -/
def countDown (r : Counter) : Counter := BitVec.ofInt 32 (r.toInt - dir r)

end Sys2Proof.Machine
end

