-- ==== Sys2Proof/Syntax.lean ====
section
/-!
DEFINITION. The operation set: one constructor for each of the seven rows of spec/opcode_table.json (spec/30_encoding.md rules R50, R53).
-/

namespace Sys2Proof

/-- One operation of the block, as one input word asks for it. `steps` is the signed 32-bit operand of 30_encoding R52; its type holds
exactly the legal operands (R54: every one of the 2^32 values). -/
inductive Instr where
  /-- RESET, 43_cycle_ops R113. -/
  | reset
  /-- NOP, 43_cycle_ops R110. -/
  | nop
  /-- TICK, 42_tick R90. -/
  | tick
  /-- MOVH steps, 41_move_request R80. -/
  | movh (steps : Counter)
  /-- MOVV steps, 41_move_request R81. -/
  | movv (steps : Counter)
  /-- TMOVH steps, 43_cycle_ops R111. -/
  | tmovh (steps : Counter)
  /-- TMOVV steps, 43_cycle_ops R112. -/
  | tmovv (steps : Counter)
deriving DecidableEq, Repr

end Sys2Proof
end

