-- ==== Sys2Proof/WellFormed.lean ====
section
/-!
DEFINITION. Well-formedness. An instruction cannot be ill-formed (spec/30_encoding.md rule R54: no operand value is refused, and the operand's
type has no other value); what can be ill-formed is a decimal operand in the written form (rule R56), which is a plain integer.
-/

namespace Sys2Proof

/-- 30_encoding R56: a written operand lies in -2147483648 .. 2147483647 (the range of `int32`, 90_conflicts C1). -/
def operandInRange (steps : Int) : Bool := decide (-2147483648 ≤ steps ∧ steps ≤ 2147483647)

/-- 30_encoding R54: "No input word is illegal, reserved or a hint", so every instruction is well-formed. -/
def Instr.wellFormed : Instr → Bool
  | .reset => true
  | .nop => true
  | .tick => true
  | .movh _ => true
  | .movv _ => true
  | .tmovh _ => true
  | .tmovv _ => true

end Sys2Proof
end

