-- ==== Sys2Proof/Decode.lean ====
section
/-!
DEFINITION. From the 36 input pins to an operation and back (spec/30_encoding.md rules R51 to R55, opcode_table.json).
-/

namespace Sys2Proof

/-- Bit 35, `rst` (30_encoding R51). -/
def rstBit (w : InputWord) : Bool := w[35]

/-- Bit 34, `tick`. -/
def tickBit (w : InputWord) : Bool := w[34]

/-- Bit 33, `wr_en`. -/
def wrEnBit (w : InputWord) : Bool := w[33]

/-- Bit 32, `wr_axis`: false = `rem[H]`, true = `rem[V]`. -/
def wrAxisBit (w : InputWord) : Bool := w[32]

/-- Bits 31:0, `wr_data`, the operand `steps` used whole (30_encoding R52). -/
def wrData (w : InputWord) : Counter := w.extractLsb' 0 32

/-- 30_encoding R53: the operation an input word asks for. Total: the seven rows cover all words. -/
def decode (w : InputWord) : Instr :=
  match rstBit w, tickBit w, wrEnBit w, wrAxisBit w with
  | true, _, _, _ => .reset
  | false, false, false, _ => .nop
  | false, true, false, _ => .tick
  | false, false, true, false => .movh (wrData w)
  | false, false, true, true => .movv (wrData w)
  | false, true, true, false => .tmovh (wrData w)
  | false, true, true, true => .tmovv (wrData w)

/-- Why a number is no input word. -/
inductive DecodeReject where
  /-- It needs more than the 36 bits of 30_encoding R51. -/
  | tooWide
deriving DecidableEq, Repr

/-- Decoding of any number: a number of at most 36 bits is an input word and decodes; a wider one is rejected by name (log 13). -/
def decodeNat (n : Nat) : Except DecodeReject Instr :=
  if n < 2 ^ 36 then .ok (decode (BitVec.ofNat 36 n)) else .error .tooWide

/-- `{rst, tick, wr_en, wr_axis, wr_data}`, the four operation bits above the 32 data bits (30_encoding R51). -/
def assembleFields (opBits : BitVec 4) (data : Counter) : InputWord :=
  (opBits ++ data).setWidth 36

/-- 30_encoding R53 to R56: the canonical word of an operation, ignored bits 0. -/
def encode : Instr → InputWord
  | .reset => assembleFields 0b1000#4 0#32
  | .nop => assembleFields 0b0000#4 0#32
  | .tick => assembleFields 0b0100#4 0#32
  | .movh steps => assembleFields 0b0010#4 steps
  | .movv steps => assembleFields 0b0011#4 steps
  | .tmovh steps => assembleFields 0b0110#4 steps
  | .tmovv steps => assembleFields 0b0111#4 steps

/-- The mnemonic of an operation (30_encoding R56). -/
def mnemonicOf : Instr → String
  | .reset => "RESET"
  | .nop => "NOP"
  | .tick => "TICK"
  | .movh _ => "MOVH"
  | .movv _ => "MOVV"
  | .tmovh _ => "TMOVH"
  | .tmovv _ => "TMOVV"

/-- One row of the opcode map (30_encoding R53). -/
structure OpcodeRow where
  mnemonic : String
  mask : InputWord
  pattern : InputWord
deriving DecidableEq, Repr

/-- The opcode map of 30_encoding R53 and opcode_table.json. -/
def opcodeMap : List OpcodeRow :=
  [⟨"RESET", 0x800000000#36, 0x800000000#36⟩,
   ⟨"NOP", 0xE00000000#36, 0x000000000#36⟩,
   ⟨"TICK", 0xE00000000#36, 0x400000000#36⟩,
   ⟨"MOVH", 0xF00000000#36, 0x200000000#36⟩,
   ⟨"MOVV", 0xF00000000#36, 0x300000000#36⟩,
   ⟨"TMOVH", 0xF00000000#36, 0x600000000#36⟩,
   ⟨"TMOVV", 0xF00000000#36, 0x700000000#36⟩]

/-- 30_encoding R53: "A word w encodes the row whose (w AND mask) = match". -/
def rowMatches (r : OpcodeRow) (w : InputWord) : Bool := w &&& r.mask == r.pattern

/-- The bits of a word that its operation does not ignore (30_encoding R55). -/
def careMask (w : InputWord) : InputWord :=
  if rstBit w then 0x800000000#36 else if wrEnBit w then 0xFFFFFFFFF#36 else 0xE00000000#36

/-- The host's question: the instruction this decoder reads from the number `w` of `nbits` bits (log 13). -/
def decodeTableWord (nbits w : Nat) : Option Instr :=
  (decodeNat (w % 2 ^ nbits)).toOption

end Sys2Proof
end

