-- ==== Sys2Proof/Machine/Operands.lean ====
section
/-!
DEFINITION. The operand forms: the 1-bit register address (spec/10_state.md rule R20, spec/20_memory.md rule R31) and what an operation asks
for at one edge: a reset, a tick, a write (spec/30_encoding.md rules R51, R53).
-/

namespace Sys2Proof.Machine

/-- The REM address map: 0 = `REM_H`, 1 = `REM_V` (20_memory R31). -/
def axisAt (address : BitVec 1) : Axis := if address = 0#1 then .h else .v

/-- The address of a counter (20_memory R31). -/
def addressOf : Axis → BitVec 1
  | .h => 0#1
  | .v => 1#1

/-- RESET is performed (30_encoding R51, bit 35). -/
def isReset : Instr → Bool
  | .reset => true
  | .nop => false
  | .tick => false
  | .movh _ => false
  | .movv _ => false
  | .tmovh _ => false
  | .tmovv _ => false

/-- A tick is performed (60_exceptions R132, 44_pin_emission R121: TICK, TMOVH, TMOVV). -/
def hasTick : Instr → Bool
  | .reset => false
  | .nop => false
  | .tick => true
  | .movh _ => false
  | .movv _ => false
  | .tmovh _ => true
  | .tmovv _ => true

/-- The host write an operation carries: the counter and its operand (30_encoding R53). -/
def hostWrite : Instr → Option (Axis × Counter)
  | .reset => none
  | .nop => none
  | .tick => none
  | .movh steps => some (.h, steps)
  | .movv steps => some (.v, steps)
  | .tmovh steps => some (.h, steps)
  | .tmovv steps => some (.v, steps)

/-- The move operation of an axis (41_move_request R80, R81). -/
def moveOn : Axis → Counter → Instr
  | .h, steps => .movh steps
  | .v, steps => .movv steps

/-- The operation neither resets the block nor writes the counter of the axis ("no other write to that axis", 42_tick R98). -/
def leavesCounterToTicks (a : Axis) (i : Instr) : Bool :=
  !isReset i && match hostWrite i with
    | none => true
    | some (b, _) => b != a

end Sys2Proof.Machine
end

