-- ==== Sys2Proof/Machine/Ops.lean ====
section
/-!
DEFINITION. The named operations over the registers: reads and writes by axis and motor, the phase-table lookup, driving a motor's lines, the
read port, the reset of the registers, and the sampling of the input pins. There is no exception entry and no return from one to write
here: the block takes no trap (spec/60_exceptions.md rules R130, R136, R137).
-/

namespace Sys2Proof.Machine

/-- `rem[a]` (10_state R11, R12). -/
def State.rem (s : State) : Axis → Counter
  | .h => s.remH
  | .v => s.remV

/-- `idx[m]` (10_state R13). -/
def State.idx (s : State) : Motor → PhaseIndex
  | .horizontal => s.idx0
  | .verticalLeft => s.idx1
  | .verticalRight => s.idx2

/-- `coil[m]` (10_state R14). -/
def State.coil (s : State) : Motor → Pattern
  | .horizontal => s.coil0
  | .verticalLeft => s.coil1
  | .verticalRight => s.coil2

/-- `emit[m]` (10_state R15). -/
def State.emit (s : State) : Motor → Bool
  | .horizontal => s.emit0
  | .verticalLeft => s.emit1
  | .verticalRight => s.emit2

/-- `rem[a] <- v`: the whole 32-bit word at once (20_memory R34). -/
def State.setRem (s : State) (a : Axis) (v : Counter) : State :=
  match a with
  | .h => { s with remH := v }
  | .v => { s with remV := v }

/-- `emit[m] <- b` (10_state R15). -/
def State.setEmit (s : State) (m : Motor) (b : Bool) : State :=
  match m with
  | .horizontal => { s with emit0 := b }
  | .verticalLeft => { s with emit1 := b }
  | .verticalRight => { s with emit2 := b }

/-- All strobes cleared: "cleared by every operation that does not advance motor m" (10_state R15). -/
def State.clearEmits (s : State) : State :=
  { s with emit0 := false, emit1 := false, emit2 := false }

/-- `idx[m] <- i`, `coil[m] <- p`, `emit[m] <- 1`: the three are written together and only together, apart from reset (10_state R14,
R15; 44_pin_emission R122). -/
def State.drive (s : State) (m : Motor) (i : PhaseIndex) (p : Pattern) : State :=
  match m with
  | .horizontal => { s with idx0 := i, coil0 := p, emit0 := true }
  | .verticalLeft => { s with idx1 := i, coil1 := p, emit1 := true }
  | .verticalRight => { s with idx2 := i, coil2 := p, emit2 := true }

/-- `Lookup(i) = PT[mod8(i)]` for any integer (40_phase_table R74). -/
def lookup (pt : PhaseTable) (i : Int) : Pattern := pt (mod8 i)

/-- One micro-step of one motor in direction `d`: advance the index, then look up the pattern at the NEW index and drive it (42_tick R92,
R94; 40_phase_table R75). -/
def State.advance (pt : PhaseTable) (s : State) (m : Motor) (d : Int) : State :=
  s.drive m (nextIndex (s.idx m) d) (lookup pt (nextIndex (s.idx m) d).toNat)

/-- The read port: `rd_data = rem[rd_axis]`, the value held before the next edge, combinational (43_cycle_ops R115, log 10). -/
def readPort (s : State) (rdAxis : BitVec 1) : Counter := s.rem (axisAt rdAxis)

/-- The writes of RESET (43_cycle_ops R113): every register to its reset value, the lines to a fresh draw of `COIL_RESET` (log 2). -/
def State.resetRegisters (s : State) : State where
  remH := 0
  remV := 0
  idx0 := 0
  idx1 := 0
  idx2 := 0
  coil0 := Config.coilReset (s.resets + 1) .horizontal
  coil1 := Config.coilReset (s.resets + 1) .verticalLeft
  coil2 := Config.coilReset (s.resets + 1) .verticalRight
  emit0 := false
  emit1 := false
  emit2 := false
  inputs := s.inputs
  undriven := s.undriven
  resets := s.resets + 1

/-- The word on the pins at the next edge (30_encoding R51): the first of those the state names (log 3), and past their end a free word, so
that the outside world goes on for ever (70_reset R166, log 4). -/
def State.sampledWord (s : State) : InputWord :=
  match s.inputs with
  | [] => Config.undrivenWord s.undriven
  | w :: _ => w

/-- The pins after the edge: the sampled word is gone, "not stored anywhere" (30_encoding R51). -/
def State.afterSample (s : State) : State :=
  match s.inputs with
  | [] => { s with undriven := s.undriven + 1 }
  | _ :: rest => { s with inputs := rest }

end Sys2Proof.Machine
end

