-- ==== Sys2Proof/Machine/Tick.lean ====
section
/-!
DEFINITION. The tick (spec/42_tick.md): the horizontal part, the vertical part, and TICK. The parts take the phase table as an argument; the
meanings give them `Config.phaseTable`.
-/

namespace Sys2Proof.Machine

/-- `TickH()` (42_tick R92; R91 when idle). -/
def tickH (pt : PhaseTable) (s : State) : State :=
  if idle s.remH then s.setEmit .horizontal false
  else (s.advance pt .horizontal (dir s.remH)).setRem .h (countDown s.remH)

/-- `TickV()` (42_tick R94; R91 when idle): the two motors in opposite senses, one decrement for the pair. -/
def tickV (pt : PhaseTable) (s : State) : State :=
  if idle s.remV then (s.setEmit .verticalLeft false).setEmit .verticalRight false
  else
    ((s.advance pt .verticalLeft (dir s.remV)).advance pt .verticalRight (-dir s.remV)).setRem .v
      (countDown s.remV)

/-- One sequencing tick: both parts at the same edge; they share no state, so no order between them shows (42_tick R90). -/
def tick (pt : PhaseTable) (s : State) : State := tickV pt (tickH pt s)

/-- TICK (42_tick R90). -/
def execTick (s : State) : Result := .next (tick Config.phaseTable s)

end Sys2Proof.Machine
end

