-- ==== Sys2Proof/Machine/Cycle.lean ====
section
/-!
DEFINITION. The cycle-level operations NOP, TMOVH, TMOVV and RESET (spec/43_cycle_ops.md).
-/

namespace Sys2Proof.Machine

/-- A tick and a host write at one edge: the tick reads the old counters, then the write lands and wins on its counter; the strobes are as
the tick gave them (43_cycle_ops R111, R112; 20_memory R39; the spec's decision D7, log 5). -/
def tickThenWrite (pt : PhaseTable) (a : Axis) (steps : Counter) (s : State) : State := (tick pt s).setRem a steps

/-- NOP (43_cycle_ops R110). -/
def execNop (s : State) : Result := .next s.clearEmits

/-- TMOVH steps (43_cycle_ops R111). -/
def execTmovh (steps : Counter) (s : State) : Result := .next (tickThenWrite Config.phaseTable .h steps s)

/-- TMOVV steps (43_cycle_ops R112). -/
def execTmovv (steps : Counter) (s : State) : Result := .next (tickThenWrite Config.phaseTable .v steps s)

/-- RESET (43_cycle_ops R113). -/
def execReset (s : State) : Result := .next s.resetRegisters

end Sys2Proof.Machine
end

