-- ==== Sys2Proof/Machine/Move.lean ====
section
/-!
DEFINITION. The move requests MOVH and MOVV (spec/41_move_request.md).
-/

namespace Sys2Proof.Machine

/-- The whole of a move request on one axis: one counter overwritten, the strobes cleared, nothing else (41_move_request R80, R81, R85). -/
def moveRequest (a : Axis) (steps : Counter) (s : State) : State := (s.setRem a steps).clearEmits

/-- MOVH steps (41_move_request R80). -/
def execMovh (steps : Counter) (s : State) : Result := .next (moveRequest .h steps s)

/-- MOVV steps (41_move_request R81). -/
def execMovv (steps : Counter) (s : State) : Result := .next (moveRequest .v steps s)

end Sys2Proof.Machine
end

