-- ==== Sys2Proof/Machine/Dispatch.lean ====
section
/-!
DEFINITION. The dispatch: one arm per operation, each one direct call of its meaning.
-/

namespace Sys2Proof.Machine

def exec (i : Instr) (s : State) : Host.Outcome State Fault Refusal :=
  match i with
  | .reset => Sys2Proof.Machine.execReset s
  | .nop => Sys2Proof.Machine.execNop s
  | .tick => Sys2Proof.Machine.execTick s
  | .movh steps => Sys2Proof.Machine.execMovh steps s
  | .movv steps => Sys2Proof.Machine.execMovv steps s
  | .tmovh steps => Sys2Proof.Machine.execTmovh steps s
  | .tmovv steps => Sys2Proof.Machine.execTmovv steps s

end Sys2Proof.Machine
end

