-- ==== Sys2Proof/Machine/Step.lean ====
section
/-!
DEFINITION. One step: one rising clock edge (spec/30_encoding.md rule R51, spec/43_cycle_ops.md rule R116).
-/

namespace Sys2Proof.Machine

/-- At a rising edge the block samples the word on its pins and performs the one operation it encodes. -/
def step (s : State) : Host.Outcome State Fault Refusal := exec (decode s.sampledWord) s.afterSample

/-- `s` with the word `w` of `nbits` bits on the pins at the next edge, in place of what was to be there (log 3, log 13). -/
def State.withFetchWord (s : State) (nbits w : Nat) : State :=
  { s with inputs := BitVec.ofNat 36 (w % 2 ^ nbits) :: s.inputs.tail }

end Sys2Proof.Machine
end

