-- ==== Sys2Proof/Machine/Assembly.lean ====
section
/-!
DEFINITION. The written form and the pseudo-operations (spec/30_encoding.md rules R56, R57): lines, their expansion and their words.
-/

namespace Sys2Proof.Machine

/-- One written line: an operation with a decimal operand, or a pseudo-operation (30_encoding R56, R57). -/
inductive Line where
  | reset
  | nop
  | tick
  | movh (steps : Int)
  | movv (steps : Int)
  | tmovh (steps : Int)
  | tmovv (steps : Int)
  | stoph
  | stopv
  | ticks (n : Nat)
  | nops (n : Nat)
deriving DecidableEq, Repr

/-- A line may be written: its operand is in the range of 30_encoding R56 (log 14). -/
def lineWellFormed : Line → Bool
  | .reset => true
  | .nop => true
  | .tick => true
  | .movh steps => operandInRange steps
  | .movv steps => operandInRange steps
  | .tmovh steps => operandInRange steps
  | .tmovv steps => operandInRange steps
  | .stoph => true
  | .stopv => true
  | .ticks _ => true
  | .nops _ => true

/-- The operations a line stands for, one per clock edge, first one first (30_encoding R56, R57). -/
def expandLine : Line → List Instr
  | .reset => [.reset]
  | .nop => [.nop]
  | .tick => [.tick]
  | .movh steps => [.movh (BitVec.ofInt 32 steps)]
  | .movv steps => [.movv (BitVec.ofInt 32 steps)]
  | .tmovh steps => [.tmovh (BitVec.ofInt 32 steps)]
  | .tmovv steps => [.tmovv (BitVec.ofInt 32 steps)]
  | .stoph => [.movh 0]
  | .stopv => [.movv 0]
  | .ticks n => List.replicate n .tick
  | .nops n => List.replicate n .nop

/-- The input words of a sequence of lines; none if a line is ill-formed (log 14). -/
def assemble (lines : List Line) : Option (List InputWord) :=
  if lines.all lineWellFormed then some ((lines.flatMap expandLine).map encode) else none

end Sys2Proof.Machine
end

