-- ==== Sys2Proof/Machine/Emission.lean ====
section
/-!
DEFINITION. The output events (spec/44_pin_emission.md): `Emit(m, p)`, the four line writes it stands for, the events an operation causes,
and the events read back from the pins `coil` and `emit`.
-/

namespace Sys2Proof.Machine

/-- `Emit(m, p)`: motor m's four lines are driven to the pattern p (44_pin_emission R120). -/
structure Emission where
  motor : Motor
  pattern : Pattern
deriving DecidableEq, Repr

/-- `set_line(m, k, value)` (44_pin_emission R120). -/
structure SetLine where
  motor : Motor
  line : Fin 4
  value : Bool
deriving DecidableEq, Repr

/-- The four line writes of one emission, all four whether or not a value changes (44_pin_emission R120; list order log 6). -/
def setLinesOf (e : Emission) : List SetLine :=
  [⟨e.motor, 0, e.pattern.getLsbD 0⟩, ⟨e.motor, 1, e.pattern.getLsbD 1⟩,
   ⟨e.motor, 2, e.pattern.getLsbD 2⟩, ⟨e.motor, 3, e.pattern.getLsbD 3⟩]

/-- `sgn` of the sense in which a motor turns for a positive count of its axis: the mirror of the vertical pair (42_tick R94, R97). -/
def motorSense : Motor → Int
  | .horizontal => 1
  | .verticalLeft => 1
  | .verticalRight => -1

/-- The emission of one motor at a tick in state `s`, if its axis is not idle (44_pin_emission R121): the pattern at the new index. -/
def emissionOfMotor (pt : PhaseTable) (s : State) (m : Motor) : List Emission :=
  if s.rem m.axis = 0 then []
  else [⟨m, pt (nextIndex (s.idx m) (motorSense m * dir (s.rem m.axis)))⟩]

/-- The output events of an operation performed in state `s` (43_cycle_ops R116, 44_pin_emission R121). -/
def emissionsOf (pt : PhaseTable) (i : Instr) (s : State) : List Emission :=
  if hasTick i then Motor.all.flatMap (emissionOfMotor pt s) else []

/-- The emission of one motor at the last edge, read from its pins (44_pin_emission R122). -/
def pinEmissionOfMotor (s : State) (m : Motor) : List Emission :=
  if s.emit m then [⟨m, s.coil m⟩] else []

/-- The output events of the last edge, read from the pins: "at each cycle in which emit[m] = 1, four writes with the values
coil[m][0..3]" (44_pin_emission R122). -/
def pinEmissions (s : State) : List Emission := Motor.all.flatMap (pinEmissionOfMotor s)

/-- The patterns one motor received, in order. -/
def patternsTo (m : Motor) (es : List Emission) : List Pattern :=
  es.filterMap fun e => if e.motor = m then some e.pattern else none

end Sys2Proof.Machine
end

