-- ==== Sys2Proof/Machine/StepFunction.lean ====
section
/-!
DEFINITION. The whole machine as the one function of spec/43_cycle_ops.md rule R116, written from that rule's text on the raw input word, apart
from the per-operation meanings: a second description of the same machine, for statements to compare with. No meaning calls it.
-/

namespace Sys2Proof.Machine

/-- What `Step(S, in)` returns: the next state and the output events. -/
structure EdgeResult where
  state : State
  events : List Emission
deriving DecidableEq, Repr

/-- R116, the horizontal block under `if tick == 1`. `s` is the old state S, `r` the result being built. -/
def edgeHorizontal (pt : PhaseTable) (s : State) (r : EdgeResult) : EdgeResult :=
  if s.remH.toInt ≠ 0 then
    let d : Int := if 0 < s.remH.toInt then 1 else -1
    let i := mod8 ((s.idx0.toNat : Int) + 8 + d)
    ⟨{ r.state with idx0 := i, coil0 := pt i, emit0 := true, remH := BitVec.ofInt 32 (s.remH.toInt - d) },
     r.events ++ [⟨.horizontal, pt i⟩]⟩
  else r

/-- R116, the vertical block under `if tick == 1`. -/
def edgeVertical (pt : PhaseTable) (s : State) (r : EdgeResult) : EdgeResult :=
  if s.remV.toInt ≠ 0 then
    let d : Int := if 0 < s.remV.toInt then 1 else -1
    let l := mod8 ((s.idx1.toNat : Int) + 8 + d)
    let right := mod8 ((s.idx2.toNat : Int) + 8 - d)
    ⟨{ r.state with
        idx1 := l, coil1 := pt l, emit1 := true
        idx2 := right, coil2 := pt right, emit2 := true
        remV := BitVec.ofInt 32 (s.remV.toInt - d) },
     r.events ++ [⟨.verticalLeft, pt l⟩, ⟨.verticalRight, pt right⟩]⟩
  else r

/-- R116, the block under `if wr_en == 1`: last, it overrides the tick's write-back of that counter. -/
def edgeWrite (w : InputWord) (r : EdgeResult) : EdgeResult :=
  if w[33] then
    if w[32] then { r with state := { r.state with remV := w.extractLsb' 0 32 } }
    else { r with state := { r.state with remH := w.extractLsb' 0 32 } }
  else r

/-- `Step(S, in)` of 43_cycle_ops R116, with its two parameters: the phase table and the value the lines take if this is a RESET. The
fields of the model's own are as logs 2, 3 and 4 have them. -/
def stepFunction (pt : PhaseTable) (coilReset : Motor → Pattern) (s : State) (w : InputWord) : EdgeResult :=
  if w[35] then
    ⟨{ remH := 0, remV := 0, idx0 := 0, idx1 := 0, idx2 := 0
       coil0 := coilReset .horizontal, coil1 := coilReset .verticalLeft, coil2 := coilReset .verticalRight
       emit0 := false, emit1 := false, emit2 := false
       inputs := s.inputs, undriven := s.undriven, resets := s.resets + 1 }, []⟩
  else
    let cleared : EdgeResult := ⟨{ s with emit0 := false, emit1 := false, emit2 := false }, []⟩
    let ticked :=
      if w[34] then edgeVertical pt s (edgeHorizontal pt s cleared) else cleared
    edgeWrite w ticked

end Sys2Proof.Machine
end

