-- ==== Sys2Proof/Machine/Transaction.lean ====
section
/-!
DEFINITION. The transaction level, the source's own machine (spec/00_scope.md rule R5, spec/43_cycle_ops.md rule R117): a state `(rem, idx)` in
plain integers and three atomic operations applied one at a time. It is written without the cycle level's words and widths, so that
"the cycle level agrees with it" says that no width or wrap of the cycle level shows.
-/

namespace Sys2Proof.Machine

/-- The state `(rem, idx)` of the source: two counters and three indices, as integers (CANICAS section 3 as quoted in 10_state R11, R13). -/
structure TxState where
  remH : Int
  remV : Int
  idx0 : Int
  idx1 : Int
  idx2 : Int
deriving DecidableEq, Repr

/-- The source's three atomic operations (30_encoding R50). -/
inductive TxOp where
  /-- `move_horizontal(steps)`, 41_move_request R80. -/
  | moveH (steps : Int)
  /-- `move_vertical(steps)`, 41_move_request R81. -/
  | moveV (steps : Int)
  /-- `on_tick()`, 42_tick R90. -/
  | tick
deriving DecidableEq, Repr

/-- The initial state: "all zero/idle" (70_reset R160). -/
def txInitial : TxState := ⟨0, 0, 0, 0, 0⟩

/-- The horizontal half of `on_tick` with its emission (42_tick R92). -/
def txTickH (pt : PhaseTable) (t : TxState) : TxState × List Emission :=
  if t.remH = 0 then (t, [])
  else
    let i := (t.idx0 + 8 + sgn t.remH) % 8
    ({ t with remH := t.remH - sgn t.remH, idx0 := i }, [⟨.horizontal, lookup pt i⟩])

/-- The vertical half of `on_tick` with its two emissions (42_tick R94). -/
def txTickV (pt : PhaseTable) (t : TxState) : TxState × List Emission :=
  if t.remV = 0 then (t, [])
  else
    let l := (t.idx1 + 8 + sgn t.remV) % 8
    let r := (t.idx2 + 8 - sgn t.remV) % 8
    ({ t with remV := t.remV - sgn t.remV, idx1 := l, idx2 := r },
     [⟨.verticalLeft, lookup pt l⟩, ⟨.verticalRight, lookup pt r⟩])

/-- One atomic operation of the source: the next state and its output events. -/
def txApply (pt : PhaseTable) (op : TxOp) (t : TxState) : TxState × List Emission :=
  match op with
  | .moveH steps => ({ t with remH := steps }, [])
  | .moveV steps => ({ t with remV := steps }, [])
  | .tick =>
    let h := txTickH pt t
    let v := txTickV pt h.1
    (v.1, h.2 ++ v.2)

/-- A sequence of atomic operations, first one first: the last state and all output events in order (20_memory R36). -/
def txRun (pt : PhaseTable) : List TxOp → TxState → TxState × List Emission
  | [], t => (t, [])
  | op :: rest, t =>
    let first := txApply pt op t
    let later := txRun pt rest first.1
    (later.1, first.2 ++ later.2)

/-- The source's state that a cycle-level state stands for: `coil` and `emit` dropped (43_cycle_ops R117). -/
def txStateOf (s : State) : TxState where
  remH := s.remH.toInt
  remV := s.remV.toInt
  idx0 := s.idx0.toNat
  idx1 := s.idx1.toNat
  idx2 := s.idx2.toNat

/-- The sequence of the source's operations that a cycle-level operation is (43_cycle_ops R117). RESET is none of them: it is a return to the
initial state. -/
def txOpsOf : Instr → List TxOp
  | .reset => []
  | .nop => []
  | .tick => [.tick]
  | .movh steps => [.moveH steps.toInt]
  | .movv steps => [.moveV steps.toInt]
  | .tmovh steps => [.tick, .moveH steps.toInt]
  | .tmovv steps => [.tick, .moveV steps.toInt]

/-- The operand of a source operation is an `int32` (90_conflicts C1). -/
def txOpInRange : TxOp → Bool
  | .moveH steps => operandInRange steps
  | .moveV steps => operandInRange steps
  | .tick => true

end Sys2Proof.Machine
end

