-- ==== Sys2Proof/Machine/Trace.lean ====
section
/-!
DEFINITION. Runs and executions (spec/70_reset_and_hazards.md rule R166: an execution is any finite or infinite sequence of input words), and what
the outside sees of them: the output events of the edges, read from the pins.
-/

namespace Sys2Proof.Machine

/-- The output events of the next `n` edges, in order, each edge's read from the pins after it (44_pin_emission R122). -/
def runEmissions : Nat → State → List Emission
  | 0, _ => []
  | n + 1, s =>
    match step s with
    | .next t => pinEmissions t ++ runEmissions n t
    | .fault _ => []
    | .refused _ => []

/-- An execution is any infinite sequence of input words (70_reset R166, 92 D21): what the block answers after its first `n` words, one operation
per edge. The sequence is an argument and no part of the state; its finite beginnings are runs of the machine on `inputs`. -/
def executionAfter (words : Nat → InputWord) (s : State) : Nat → Result
  | 0 => .next s
  | n + 1 =>
    match executionAfter words s n with
    | .next t => exec (decode (words n)) t
    | .fault r => .fault r
    | .refused r => .refused r

/-- "Ticks keep coming", the timer's duty on which completion rests (70_reset R166). -/
def ticksKeepComing (words : Nat → InputWord) : Prop := ∀ n : Nat, ∃ k : Nat, n ≤ k ∧ hasTick (decode (words k)) = true

/-- How many of the words perform a tick. -/
def tickCount (ws : List InputWord) : Nat := ws.countP fun w => hasTick (decode w)

/-- No word resets the block or writes the counter of the axis: "with no other write to that axis" (42_tick R98). -/
def noOtherWrite (a : Axis) (ws : List InputWord) : Bool := ws.all fun w => leavesCounterToTicks a (decode w)

end Sys2Proof.Machine
end

