-- ==== Sys2Proof/Safety.lean ====
section
/-!
DEFINITION. What counts as a safe state and a safe run (spec/10_state.md rule R22, spec/60_exceptions.md rule R130).
-/

namespace Sys2Proof.Machine

/-- 10_state R22 item 2: `mod8(idx[1] + idx[2]) = 0`, the vertical pair is mirrored. -/
def pairMirrored (s : State) : Prop := (s.idx1.toNat + s.idx2.toNat) % 8 = 0

/-- 10_state R22 item 4: `emit[1] = emit[2]`. -/
def pairStrobedTogether (s : State) : Prop := s.emit1 = s.emit2

/-- 10_state R22 item 3 for one motor: its lines hold the pattern of its index, or it still stands where the last reset left it, with the
lines as that reset drew them. -/
def linesFollowIndex (s : State) (m : Motor) : Prop :=
  s.coil m = Config.phaseTable (s.idx m) ∨ (s.idx m = 0 ∧ s.coil m = Config.coilReset s.resets m)

/-- The invariant of 10_state R22, items 2 to 4 (item 1 is the type of an index). -/
structure Inv (s : State) : Prop where
  mirrored : pairMirrored s
  strobed : pairStrobedTogether s
  lines : ∀ m : Motor, linesFollowIndex s m

/-- A run is safe if every one of its edges answers a next state: the block "never faults, never refuses, and is never stuck" (60_exceptions
R130), for as many edges as one likes. -/
def SafeRun (s : State) : Prop := ∀ n : Nat, ∃ t : State, Host.Core.run Sys2Proof.core n s = .next t

/-- What a tick did to one motor between `s` and `t`: nothing if its axis was idle (42_tick R91), else one micro-step in the motor's own
sense, with the pattern of the NEW index on its lines (42_tick R92, R94). In plain integers. -/
def MotorTicked (s t : State) (m : Motor) : Prop :=
  if s.rem m.axis = 0 then t.idx m = s.idx m ∧ t.coil m = s.coil m ∧ t.emit m = false
  else
    ((t.idx m).toNat : Int) = ((s.idx m).toNat + 8 + motorSense m * sgn (s.rem m.axis).toInt) % 8 ∧
      t.coil m = Config.phaseTable (t.idx m) ∧ t.emit m = true

/-- What a tick did to one counter between `s` and `t`: one toward zero, 0 staying 0 (42_tick R95). In plain integers. -/
def CounterTicked (s t : State) (a : Axis) : Prop :=
  (t.rem a).toInt = (s.rem a).toInt - sgn (s.rem a).toInt

/-- The two states hold the same in everything that belongs to one axis (42_tick R90: what its half of the tick reads and writes). -/
def SameOnAxis (a : Axis) (s t : State) : Prop :=
  s.rem a = t.rem a ∧ ∀ m : Motor, m.axis = a → s.idx m = t.idx m ∧ s.coil m = t.coil m ∧ s.emit m = t.emit m

/-- The operand an operation writes to one axis's counter, if it writes it. -/
def writeTo (a : Axis) (i : Instr) : Option Counter :=
  match hostWrite i with
  | none => none
  | some (b, v) => if b = a then some v else none

end Sys2Proof.Machine
end

