-- ==== Sys2Proof/Certificates/Slice0/Obligations.lean ====
section
/-!
DEFINITION. The statements for the provers. Each docstring names the rules of spec/ it formalises or rests on; where a clause rests on a decision
the spec marks as its own (D<n> of spec/92_eei_decisions.md) or on a choice of the model (log <n>), it says so.
-/

open Sys2Proof Sys2Proof.Machine

/-! ### Encoding -/

/-- 30_encoding sections 2 to 6 (the encoding is the spec's own decision D13): no operand bit of any operation is lost. -/
def Obligations.DecodeUndoesEncode : Prop :=
  ∀ i : Instr, i.wellFormed = true → decode (encode i) = i

/-- 30_encoding section 5 (D13): the canonical word of a decoded word is that word with its ignored bits cleared. -/
def Obligations.EncodeUndoesDecodeUpToIgnoredBits : Prop :=
  ∀ w : InputWord, encode (decode w) = w &&& careMask w

/-- 30_encoding section 5 (D13): with `rst = 1` bits 34:0 do not matter; with `wr_en = 0` bits 32:0 do not matter. -/
def Obligations.IgnoredBitsDoNotMatter : Prop :=
  ∀ v w : InputWord,
    (v[35] = true → w[35] = true → decode v = decode w) ∧
    (v[33] = false → v &&& 0xE00000000#36 = w &&& 0xE00000000#36 → decode v = decode w)

/-- 30_encoding section 4 (D13): the seven rows are disjoint and together cover all words, and the decoder takes the matching row. -/
def Obligations.ExactlyOneOpcodeRowMatches : Prop :=
  ∀ w : InputWord, ∃ r ∈ opcodeMap, rowMatches r w = true ∧ r.mnemonic = mnemonicOf (decode w) ∧
    ∀ q ∈ opcodeMap, rowMatches q w = true → q = r

/-- 30_encoding sections 4 to 6: words the spec writes out, one for each operation (D13). -/
def Obligations.WrittenOutWordsDecode : Prop :=
  decode 0x800000000#36 = .reset ∧ decode 0xE00000009#36 = .reset ∧
  decode 0x1DEADBEEF#36 = .nop ∧ decode 0x5DEADBEEF#36 = .tick ∧
  decode 0x200000003#36 = .movh 3 ∧ decode 0x3FFFFFFFE#36 = .movv (BitVec.ofInt 32 (-2)) ∧
  decode 0x6FFFFFFFD#36 = .tmovh (BitVec.ofInt 32 (-3)) ∧ decode 0x700000004#36 = .tmovv 4

/-- 30_encoding R54: every word decodes (its bits read as a number too) and performs its operation; every operand value is legal for the
four operations that take one. -/
def Obligations.EveryInputWordExecutes : Prop :=
  (∀ w : InputWord, decodeTableWord 36 w.toNat = some (decode w) ∧
    ∀ s : State, ∃ t : State, exec (decode w) s = .next t) ∧
  ∀ steps : Counter,
    decode (assembleFields 0x2#4 steps) = .movh steps ∧ decode (assembleFields 0x3#4 steps) = .movv steps ∧
    decode (assembleFields 0x6#4 steps) = .tmovh steps ∧ decode (assembleFields 0x7#4 steps) = .tmovv steps

/-- 30_encoding section 6 (D14; log 14 for the operands out of range): an assembled text is the words of its lines, one after the other; a line
with an operand is one word, of its operation and of exactly the written integer; an operand out of range has no word, and a text with such a line has
none; each pseudo-operation is its expansion; and the words decode to the operations the lines stand for. -/
def Obligations.AssembledLinesDecodeToTheirOperations : Prop :=
  (assemble [] = some [] ∧
    ∀ (line : Line) (lines : List Line), assemble (line :: lines) =
      (assemble [line]).bind fun us => (assemble lines).map fun vs => us ++ vs) ∧
  (∀ v : Int, -2147483648 ≤ v → v ≤ 2147483647 → ∃ steps : Counter, steps.toInt = v ∧
    assemble [.movh v] = some [assembleFields 0x2#4 steps] ∧ decode (assembleFields 0x2#4 steps) = .movh steps ∧
    assemble [.movv v] = some [assembleFields 0x3#4 steps] ∧ decode (assembleFields 0x3#4 steps) = .movv steps ∧
    assemble [.tmovh v] = some [assembleFields 0x6#4 steps] ∧ decode (assembleFields 0x6#4 steps) = .tmovh steps ∧
    assemble [.tmovv v] = some [assembleFields 0x7#4 steps] ∧ decode (assembleFields 0x7#4 steps) = .tmovv steps) ∧
  (∀ v : Int, v < -2147483648 ∨ 2147483647 < v →
    assemble [.movh v] = none ∧ assemble [.movv v] = none ∧ assemble [.tmovh v] = none ∧ assemble [.tmovv v] = none) ∧
  (assemble [.reset] = some [0x800000000#36] ∧ assemble [.nop] = some [0x000000000#36] ∧
    assemble [.tick] = some [0x400000000#36]) ∧
  (assemble [.stoph] = assemble [.movh 0] ∧ assemble [.stoph] = some [0x200000000#36] ∧
    assemble [.stopv] = assemble [.movv 0] ∧ assemble [.stopv] = some [0x300000000#36]) ∧
  (∀ n : Nat, assemble [.ticks n] = some (List.replicate n 0x400000000#36) ∧
    assemble [.nops n] = some (List.replicate n 0x000000000#36)) ∧
  ∀ (lines : List Line) (ws : List InputWord), assemble lines = some ws →
    ws.map decode = lines.flatMap expandLine

/-! ### The step -/

/-- 43_cycle_ops section 6, 30_encoding section 2 (the input list is the model's own, log 3): a step is exec of the decoded word, and the word is
gone from the pins. -/
def Obligations.StepRunsTheDecodedInstruction : Prop :=
  ∀ (s : State) (w : InputWord) (rest : List InputWord), s.inputs = w :: rest →
    step s = exec (decode w) { s with inputs := rest }

/-- 43_cycle_ops section 1 (decision D13): an edge at which neither reset nor a tick nor a write is asked is a NOP, whatever the other bits
carry. -/
def Obligations.NothingAskedIsNop : Prop :=
  ∀ s : State, s.sampledWord[35] = false → s.sampledWord[34] = false → s.sampledWord[33] = false →
    step s = exec .nop s.afterSample

/-- The model's choice (log 4), after 70_reset section 3 (decision D21): past the words the state names the outside world goes on, with words
of which nothing is known. -/
def Obligations.UndrivenEdgePerformsAFreeWord : Prop :=
  ∀ s : State, s.inputs = [] →
    step s = exec (decode (Config.undrivenWord s.undriven)) { s with undriven := s.undriven + 1 }

/-- 70_reset section 3 (decision D21; the fields `inputs` and `undriven` are the model's own, logs 3 and 4): every infinite sequence of words is
an execution with no last state; its first n edges are the run of the machine on its first n words; and the run on no named word is the execution
on the free words. -/
def Obligations.ExecutionsNeverEndAndAreRuns : Prop :=
  (∀ (words : Nat → InputWord) (s : State) (n : Nat), ∃ t : State, executionAfter words s n = .next t ∧
    ∀ rest : List InputWord,
      Host.Core.run core n { s with inputs := (List.range n).map words ++ rest } = .next { t with inputs := rest }) ∧
  ∀ (s : State) (n : Nat), s.inputs = [] → ∃ t : State,
    executionAfter (fun k => Config.undrivenWord (s.undriven + k)) s n = .next t ∧
    Host.Core.run core n s = .next { t with undriven := s.undriven + n }

/-- 60_exceptions R130: one outcome, the next state, for every operation, every state and every run. -/
def Obligations.EveryRunIsSafe : Prop :=
  (∀ (i : Instr) (s : State), ∃ t : State, exec i s = .next t) ∧
  (∀ s : State, ∃ t : State, step s = .next t) ∧ ∀ s : State, SafeRun s

/-- 43_cycle_ops section 6 (derived there; coil values after RESET are any, D9): the per-operation meanings, with the events read from the
pins, are the one function `Step(S, in)` on the raw word. -/
def Obligations.StepEqualsTheStepFunction : Prop :=
  ∀ (s : State) (w : InputWord) (rest : List InputWord), s.inputs = w :: rest →
    ∃ (drawn : Motor → Pattern) (t : State), step s = .next t ∧
      stepFunction Config.phaseTable drawn { s with inputs := rest } w = ⟨t, pinEmissions t⟩

/-- The model's own fields (logs 2, 3, 4): no operation touches what the outside world will drive, and only RESET counts a reset. -/
def Obligations.OperationsLeaveTheInputsAlone : Prop :=
  ∀ (i : Instr) (s t : State), exec i s = .next t →
    t.inputs = s.inputs ∧ t.undriven = s.undriven ∧ t.resets = if isReset i then s.resets + 1 else s.resets

/-! ### Reset and NOP -/

/-- 70_reset section 1, 10_state section 4: counters, indices and strobes are zero and both axes idle in the state after reset (the strobes are the
spec's decision D8); the lines are a free draw (D9, log 2). -/
def Obligations.StateAfterReset : Prop :=
  (∀ a : Axis, State.reset.rem a = 0 ∧ idle (State.reset.rem a) = true) ∧
  ∀ m : Motor, State.reset.idx m = 0 ∧ State.reset.emit m = false ∧ State.reset.coil m = Config.coilReset 0 m

/-- 43_cycle_ops section 3 (decisions D2, D9; the numbering of the draws is log 2): RESET completes from every state, leaves the reset values and
emits nothing. -/
def Obligations.ResetRestoresTheResetState : Prop :=
  ∀ s : State, ∃ t : State, exec .reset s = .next t ∧ (∀ a : Axis, t.rem a = 0) ∧
    (∀ m : Motor, t.idx m = 0 ∧ t.emit m = false ∧ t.coil m = Config.coilReset (s.resets + 1) m) ∧
    t.inputs = s.inputs ∧ t.undriven = s.undriven ∧ t.resets = s.resets + 1 ∧ pinEmissions t = []

/-- 43_cycle_ops section 3, 60_exceptions section 2 (decision D2): a tick or a write presented together with reset is lost. -/
def Obligations.ResetWinsOverTickAndWrite : Prop :=
  ∀ (s : State) (w : InputWord) (rest : List InputWord), s.inputs = w :: rest → w[35] = true →
    step s = exec .reset { s with inputs := rest }

/-- 43_cycle_ops section 1 (decision D13): NOP holds everything but the strobes, which it clears; any number of NOPs changes no counter, index
or line and adds no event. -/
def Obligations.NopHoldsEverything : Prop :=
  (∀ s : State, exec .nop s = .next { s with emit0 := false, emit1 := false, emit2 := false }) ∧
  ∀ (ws rest : List InputWord) (s : State), s.inputs = ws ++ rest → (∀ w ∈ ws, decode w = .nop) →
    ∃ t : State, Host.Core.run core ws.length s = .next t ∧ (∀ a : Axis, t.rem a = s.rem a) ∧
      (∀ m : Motor, t.idx m = s.idx m ∧ t.coil m = s.coil m) ∧ runEmissions ws.length s = []

/-! ### Move requests -/

/-- 41_move_request R80: MOVH by its encoding; the whole next state for every operand; no event; the worked example. -/
def Obligations.MoveHorizontalOverwritesItsCounter : Prop :=
  (∀ w : InputWord, w &&& 0xF00000000#36 = 0x200000000#36 → decode w = .movh (w.extractLsb' 0 32)) ∧
  (∀ (s : State) (steps : Counter), ∃ t : State, exec (.movh steps) s = .next t ∧
    t = { s with remH := steps, emit0 := false, emit1 := false, emit2 := false } ∧ pinEmissions t = []) ∧
  step { State.reset with inputs := [0x200000003#36] } = .next { State.reset with remH := 3 }

/-- 41_move_request R81: MOVV by its encoding; the whole next state for every operand; no event; the one value drives both motors in opposite
senses at the next tick; the worked example. -/
def Obligations.MoveVerticalOverwritesTheSharedCounter : Prop :=
  (∀ w : InputWord, w &&& 0xF00000000#36 = 0x300000000#36 → decode w = .movv (w.extractLsb' 0 32)) ∧
  (∀ (s : State) (steps : Counter), ∃ t : State, exec (.movv steps) s = .next t ∧
    t = { s with remV := steps, emit0 := false, emit1 := false, emit2 := false } ∧ pinEmissions t = []) ∧
  (∀ (s t : State) (steps : Counter), exec (.movv steps) s = .next t → ∃ u : State, exec .tick t = .next u ∧
    (u.idx1.toNat : Int) = ((s.idx1.toNat : Int) + sgn steps.toInt) % 8 ∧
    (u.idx2.toNat : Int) = ((s.idx2.toNat : Int) - sgn steps.toInt) % 8) ∧
  step { State.reset with inputs := [0x3FFFFFFFE#36] } = .next { State.reset with remV := 0xFFFFFFFE#32 }

/-- 41_move_request section 3, 20_memory section 2: the last write wins, a repeated write changes nothing more, and no index moves. -/
def Obligations.LastMoveWins : Prop :=
  ∀ (a : Axis) (v w : Counter) (s t : State), exec (moveOn a v) s = .next t →
    exec (moveOn a w) t = exec (moveOn a w) s ∧ exec (moveOn a v) t = .next t ∧
    ∀ m : Motor, t.idx m = s.idx m ∧ t.coil m = s.coil m

/-- 41_move_request R84: a zero operand is written; on an idle axis nothing else changes; on a moving one the request is cancelled: from
then on, whatever else is asked, the axis is idle, its indices stay and its lines hold, until it is written again. -/
def Obligations.ZeroMoveCancels : Prop :=
  ∀ (a : Axis) (s : State), ∃ t : State, exec (moveOn a 0) s = .next t ∧ t.rem a = 0 ∧
    (s.rem a = 0 → t = s.clearEmits) ∧
    ∀ ws rest : List InputWord, s.inputs = ws ++ rest → noOtherWrite a ws = true →
      ∃ u : State, Host.Core.run core ws.length t = .next u ∧ u.rem a = 0 ∧
        ∀ m : Motor, m.axis = a → u.idx m = s.idx m ∧ u.coil m = s.coil m

/-! ### The tick -/

/-- 42_tick R92: the horizontal part of a tick, idle and not idle, in plain integers, with its emission; it touches nothing of the vertical
axis, and TICK performs it. -/
def Obligations.HorizontalTickPart : Prop :=
  ∀ s : State, ∃ t : State, exec .tick s = .next t ∧
    (s.remH = 0 → t.remH = 0 ∧ t.idx0 = s.idx0 ∧ t.coil0 = s.coil0 ∧ t.emit0 = false ∧
      patternsTo .horizontal (pinEmissions t) = []) ∧
    (s.remH ≠ 0 → ∃ d : Int, d = (if 0 < s.remH.toInt then 1 else -1) ∧
      (t.idx0.toNat : Int) = ((s.idx0.toNat : Int) + 8 + d) % 8 ∧
      t.coil0 = Config.phaseTable t.idx0 ∧ t.emit0 = true ∧
      patternsTo .horizontal (pinEmissions t) = [Config.phaseTable t.idx0] ∧
      t.remH.toInt = s.remH.toInt - d) ∧
    (∃ u : State, u = tickH Config.phaseTable s ∧
      u.remH = t.remH ∧ u.idx0 = t.idx0 ∧ u.coil0 = t.coil0 ∧ u.emit0 = t.emit0 ∧ SameOnAxis .v u s)

/-- 42_tick section 3 (the index formula of the vertical motors is derived there): the vertical part of a tick, mirrored, with ONE decrement for the
pair; it touches nothing of the horizontal axis, and TICK performs it. -/
def Obligations.VerticalTickPart : Prop :=
  ∀ s : State, ∃ t : State, exec .tick s = .next t ∧
    (s.remV = 0 → t.remV = 0 ∧ t.idx1 = s.idx1 ∧ t.idx2 = s.idx2 ∧ t.coil1 = s.coil1 ∧ t.coil2 = s.coil2 ∧
      t.emit1 = false ∧ t.emit2 = false) ∧
    (s.remV ≠ 0 → ∃ d : Int, d = (if 0 < s.remV.toInt then 1 else -1) ∧
      (t.idx1.toNat : Int) = ((s.idx1.toNat : Int) + 8 + d) % 8 ∧
      (t.idx2.toNat : Int) = ((s.idx2.toNat : Int) + 8 - d) % 8 ∧
      t.coil1 = Config.phaseTable t.idx1 ∧ t.coil2 = Config.phaseTable t.idx2 ∧
      t.emit1 = true ∧ t.emit2 = true ∧
      t.remV.toInt = s.remV.toInt - d) ∧
    (∃ u : State, u = tickV Config.phaseTable s ∧ SameOnAxis .v u t ∧ SameOnAxis .h u s)

/-- 42_tick section 1: the two parts share no state, so either order is the tick; TICK is chosen by its encoding, and a tick is performed
exactly when bit 34 is 1 and bit 35 is 0 (reset's priority is the spec's decision D2); the number of emissions is 0, 1, 2 or 3 by
which axes are active. -/
def Obligations.TickPartsCommute : Prop :=
  (∀ w : InputWord, w &&& 0xE00000000#36 = 0x400000000#36 → decode w = .tick) ∧
  (∀ w : InputWord, hasTick (decode w) = (w[34] && !w[35])) ∧
  (∀ (pt : PhaseTable) (s : State), tickH pt (tickV pt s) = tickV pt (tickH pt s)) ∧
  ∀ s : State, ∃ t : State, exec .tick s = .next t ∧ t = tickH Config.phaseTable (tickV Config.phaseTable s) ∧
    (pinEmissions t).length = (if s.remH = 0 then 0 else 1) + (if s.remV = 0 then 0 else 2)

/-- 42_tick section 1 and section 4, all of TICK at once: every motor and every counter after it, and the frame. -/
def Obligations.TickCompletes : Prop :=
  ∀ s : State, ∃ t : State, exec .tick s = .next t ∧ (∀ m : Motor, MotorTicked s t m) ∧
    (∀ a : Axis, CounterTicked s t a) ∧ t.inputs = s.inputs ∧ t.undriven = s.undriven ∧
    t.resets = s.resets

/-- 42_tick R91: a tick leaves an idle axis as it was and emits nothing for it, however often it is repeated; with both axes idle it is a
NOP. -/
def Obligations.IdleAxisIsSkipped : Prop :=
  (∀ (a : Axis) (s : State) (n : Nat) (rest : List InputWord), s.rem a = 0 →
    s.inputs = List.replicate n (encode .tick) ++ rest →
    ∃ t : State, Host.Core.run core n s = .next t ∧ t.rem a = 0 ∧
      ∀ m : Motor, m.axis = a → t.idx m = s.idx m ∧ t.coil m = s.coil m ∧ (0 < n → t.emit m = false) ∧
        patternsTo m (runEmissions n s) = []) ∧
  ∀ s : State, s.remH = 0 → s.remV = 0 → exec .tick s = exec .nop s ∧ exec .tick s = .next s.clearEmits

/-- 42_tick R93: the direction is the sign bit, and it is read from the counter at every tick: the first tick after a move goes the way of the
new operand. -/
def Obligations.DirectionIsTheSignOfTheCounter : Prop :=
  (∀ r : Counter, r ≠ 0 → dir r = (if 0 < r.toInt then 1 else -1) ∧ dir r = (if r[31] then -1 else 1)) ∧
  ∀ (a : Axis) (steps : Counter) (s t : State), steps ≠ 0 → exec (moveOn a steps) s = .next t →
    ∃ u : State, exec .tick t = .next u ∧ ∀ m : Motor, m.axis = a →
      ((u.idx m).toNat : Int) =
        (((s.idx m).toNat : Int) + motorSense m * (if steps[31] then -1 else 1)) % 8

/-- 42_tick section 4 (derived there): a tick moves a counter one toward zero, never past it, never out of range; 0 stays 0. -/
def Obligations.CounterMovesTowardZero : Prop :=
  ∀ (s t : State) (a : Axis), exec .tick s = .next t →
    (t.rem a).toInt.natAbs = (s.rem a).toInt.natAbs - 1 ∧
    (0 ≤ (s.rem a).toInt → 0 ≤ (t.rem a).toInt) ∧ ((s.rem a).toInt ≤ 0 → (t.rem a).toInt ≤ 0) ∧
    (s.rem a ≠ 0 → t.rem a = if (s.rem a)[31] then s.rem a + 1 else s.rem a - 1)

/-- 42_tick R96: the index step: the operand's range, the 3-bit addition or subtraction it is, both wraps, and that the `+ 8` changes
nothing. -/
def Obligations.IndexStepWrapsModuloEight : Prop :=
  ∀ (i : PhaseIndex) (d : Int), d = 1 ∨ d = -1 →
    (7 ≤ (i.toNat : Int) + 8 + d ∧ (i.toNat : Int) + 8 + d ≤ 16) ∧
    nextIndex i d = (if d = 1 then i + 1 else i - 1) ∧
    (nextIndex i d).toNat = (if d = 1 then (if i.toNat = 7 then 0 else i.toNat + 1)
      else (if i.toNat = 0 then 7 else i.toNat - 1)) ∧
    mod8 ((i.toNat : Int) + 8 + d) = mod8 ((i.toNat : Int) + d)

/-- 42_tick R97: at every tick with a non-zero shared counter Left advances by d and Right by -d. 10_state section 5, item 2 (derived there):
the pair is never advanced separately, and the sum of the two indices is unchanged modulo 8, by every operation but RESET. -/
def Obligations.VerticalPairIsMirrored : Prop :=
  (∀ (i : Instr) (s t : State), exec i s = .next t → hasTick i = true → s.remV ≠ 0 →
    ((t.idx1.toNat : Int) = ((s.idx1.toNat : Int) + sgn s.remV.toInt) % 8 ∧
      (t.idx2.toNat : Int) = ((s.idx2.toNat : Int) - sgn s.remV.toInt) % 8)) ∧
  (∀ (i : Instr) (s t : State), exec i s = .next t → isReset i = false →
    ((t.idx1 = s.idx1 ↔ t.idx2 = s.idx2) ∧
      (t.idx1.toNat + t.idx2.toNat) % 8 = (s.idx1.toNat + s.idx2.toNat) % 8))

/-- 40_phase_table R74: the lookup takes any integer to the pattern at its non-negative remainder; on a stored index it is the ROM itself; the
corner cases and the worked example. -/
def Obligations.LookupTakesAnyInteger : Prop :=
  (∀ (pt : PhaseTable) (i : Int), ∃ j : PhaseIndex, (j.toNat : Int) = i % 8 ∧ lookup pt i = pt j) ∧
  (∀ (pt : PhaseTable) (i : PhaseIndex), lookup pt i.toNat = pt i) ∧
  (∀ pt : PhaseTable, lookup pt (-1) = pt 7 ∧ lookup pt 8 = pt 0 ∧ lookup pt (-8) = pt 0 ∧ lookup pt 15 = pt 7) ∧
  lookup Config.defaultTable (-1) = 0x9#4

/-! ### A tick and a write at one edge -/

/-- 43_cycle_ops section 2 (tick first is the spec's own decision D7, log 5): TMOVH takes one more step of the OLD horizontal request, if there is
one, and leaves exactly the operand; the vertical axis sees an ordinary tick. -/
def Obligations.TickThenHorizontalMove : Prop :=
  ∀ (s : State) (steps : Counter), ∃ t : State, exec (.tmovh steps) s = .next t ∧ t.remH = steps ∧
    (∀ m : Motor, MotorTicked s t m) ∧ CounterTicked s t .v ∧ t.inputs = s.inputs ∧ t.undriven = s.undriven ∧
    t.resets = s.resets

/-- 43_cycle_ops section 2 (D7, log 5): TMOVV, the same with the axes exchanged. -/
def Obligations.TickThenVerticalMove : Prop :=
  ∀ (s : State) (steps : Counter), ∃ t : State, exec (.tmovv steps) s = .next t ∧ t.remV = steps ∧
    (∀ m : Motor, MotorTicked s t m) ∧ CounterTicked s t .h ∧ t.inputs = s.inputs ∧ t.undriven = s.undriven ∧
    t.resets = s.resets

/-- 20_memory section 3 (D7, log 5): a tick and a write at one edge leave the counters, indices and lines that TICK and then the move leave, and
the strobes that TICK leaves. -/
def Obligations.SameEdgeIsTickThenWrite : Prop :=
  ∀ (s u x : State) (a : Axis) (i : Instr) (steps : Counter),
    hasTick i = true → hostWrite i = some (a, steps) →
    exec .tick s = .next u → exec (moveOn a steps) u = .next x →
    ∃ t : State, exec i s = .next t ∧ t.clearEmits = x ∧ ∀ m : Motor, t.emit m = u.emit m

/-! ### Closed form over any run -/

/-- 42_tick section 4, rule R98's text (derived there), horizontal axis: after a move and n ticks with no other write to the axis, whatever
else is asked in between. -/
def Obligations.ClosedFormHorizontal : Prop :=
  ∀ (s : State) (steps : Counter) (move : InputWord) (ws rest : List InputWord),
    s.inputs = move :: (ws ++ rest) → decode move = .movh steps → noOtherWrite .h ws = true →
    ∃ t : State, Host.Core.run core (ws.length + 1) s = .next t ∧ t.inputs = rest ∧
      t.remH.toInt =
        steps.toInt - sgn steps.toInt * (min (tickCount ws) steps.toInt.natAbs : Nat) ∧
      (t.idx0.toNat : Int) =
        ((s.idx0.toNat : Int) + sgn steps.toInt * (min (tickCount ws) steps.toInt.natAbs : Nat)) % 8

/-- 42_tick section 4, rule R98's text (derived there), vertical axis: one counter, two indices in opposite senses. -/
def Obligations.ClosedFormVertical : Prop :=
  ∀ (s : State) (steps : Counter) (move : InputWord) (ws rest : List InputWord),
    s.inputs = move :: (ws ++ rest) → decode move = .movv steps → noOtherWrite .v ws = true →
    ∃ t : State, Host.Core.run core (ws.length + 1) s = .next t ∧ t.inputs = rest ∧
      t.remV.toInt =
        steps.toInt - sgn steps.toInt * (min (tickCount ws) steps.toInt.natAbs : Nat) ∧
      (t.idx1.toNat : Int) =
        ((s.idx1.toNat : Int) + sgn steps.toInt * (min (tickCount ws) steps.toInt.natAbs : Nat)) % 8 ∧
      (t.idx2.toNat : Int) =
        ((s.idx2.toNat : Int) - sgn steps.toInt * (min (tickCount ws) steps.toInt.natAbs : Nat)) % 8

/-- 42_tick section 4 and 44_pin_emission, the texts of rules R98 and R127 (derived there): the patterns a motor has received after a move and n
ticks are, in order, those of the indices one, two, ... steps away, as many as steps were taken. -/
def Obligations.EmissionsFollowTheMove : Prop :=
  ∀ (s : State) (m : Motor) (steps : Counter) (move : InputWord) (ws rest : List InputWord),
    s.inputs = move :: (ws ++ rest) → decode move = moveOn m.axis steps → noOtherWrite m.axis ws = true →
    patternsTo m (runEmissions (ws.length + 1) s) =
      (List.range (min (tickCount ws) steps.toInt.natAbs)).map fun j : Nat =>
        lookup Config.phaseTable (((s.idx m).toNat : Int) + motorSense m * sgn steps.toInt * ((j : Int) + 1))

/-- 70_reset section 3, the text of rule R166 (decision D21): completion rests on the timer. In an execution that never resets and never writes an
axis's counter again, if ticks keep coming the axis comes to read 0 and stays so, with every step of the request taken; if no tick
comes the counter never changes. -/
def Obligations.MoveCompletesIfTicksKeepComing : Prop :=
  ∀ (words : Nat → InputWord) (s : State) (a : Axis), (∀ n : Nat, leavesCounterToTicks a (decode (words n)) = true) →
    (ticksKeepComing words → ∃ n : Nat, ∀ k : Nat, n ≤ k → ∃ t : State, executionAfter words s k = .next t ∧
      readPort t (addressOf a) = 0 ∧
      ∀ m : Motor, m.axis = a →
        ((t.idx m).toNat : Int) = (((s.idx m).toNat : Int) + motorSense m * (s.rem a).toInt) % 8) ∧
    ((∀ n : Nat, hasTick (decode (words n)) = false) →
      ∀ k : Nat, ∃ t : State, executionAfter words s k = .next t ∧ t.rem a = s.rem a)

/-! ### Output events and lines -/

/-- 44_pin_emission, the text of rule R121 (derived there): a motor is strobed exactly if a tick is performed and its axis was not idle. -/
def Obligations.EmissionExactlyWhenAdvanced : Prop :=
  ∀ (i : Instr) (s t : State) (m : Motor), exec i s = .next t →
    (t.emit m = true ↔ hasTick i = true ∧ s.rem m.axis ≠ 0) ∧
    (t.emit m = true → t.coil m = Config.phaseTable (t.idx m))

/-- 44_pin_emission, the texts of rules R120 and R122 (pin form: decisions D8, D22): the events of an operation, computed from the state before
it, are those its pins show after it, and each stands for one write to each of the motor's four lines. -/
def Obligations.PinsShowTheEvents : Prop :=
  ∀ (i : Instr) (s t : State), exec i s = .next t →
    pinEmissions t = emissionsOf Config.phaseTable i s ∧
    ∀ (m : Motor) (k : Fin 4) (v : Bool),
      (⟨m, k, v⟩ ∈ (emissionsOf Config.phaseTable i s).flatMap setLinesOf ↔
        t.emit m = true ∧ v = (t.coil m).getLsbD k)

/-- 44_pin_emission R123: between emissions the lines of a motor do not change, over one operation and over any number of them without a
reset; what is driven is always the table's pattern of the index, never an off pattern of the block's own accord. -/
def Obligations.LinesHoldBetweenEmissions : Prop :=
  (∀ (i : Instr) (s t : State) (m : Motor), exec i s = .next t → isReset i = false →
    (t.emit m = false → t.coil m = s.coil m) ∧ (t.emit m = true → t.coil m = Config.phaseTable (t.idx m))) ∧
  ∀ (m : Motor) (ws rest : List InputWord) (s : State), s.inputs = ws ++ rest →
    (∀ w ∈ ws, isReset (decode w) = false) → patternsTo m (runEmissions ws.length s) = [] →
    ∃ t : State, Host.Core.run core ws.length s = .next t ∧ t.coil m = s.coil m

/-- 44_pin_emission, the text of rule R124 (decision D8): from any state at all, one edge leaves the two vertical strobes equal. -/
def Obligations.VerticalStrobesAgreeAfterAnyStep : Prop :=
  ∀ s t : State, step s = .next t → t.emit1 = t.emit2

/-! ### Whole-machine rules -/

/-- 10_state section 5, item 5 (derived there), and section 3: an index changes only at a reset, or at a tick with its axis not idle, and then by
one. -/
def Obligations.IndexMovesOnlyOnAnActiveTick : Prop :=
  ∀ (i : Instr) (s t : State) (m : Motor), exec i s = .next t → t.idx m ≠ s.idx m →
    isReset i = true ∨ (hasTick i = true ∧ s.rem m.axis ≠ 0 ∧ (t.idx m = s.idx m + 1 ∨ t.idx m = s.idx m - 1))

/-- 10_state section 3, the text of rule R19: who writes a counter and what: reset writes 0, the host any value, the tick one toward zero;
nobody else writes it. The write winning over the tick is the spec's decision D7 (log 5). -/
def Obligations.CounterAccessRights : Prop :=
  ∀ (i : Instr) (s t : State) (a : Axis), exec i s = .next t →
    (isReset i = true → t.rem a = 0) ∧
    (∀ v : Counter, writeTo a i = some v → t.rem a = v) ∧
    (isReset i = false → writeTo a i = none → hasTick i = true → CounterTicked s t a) ∧
    (isReset i = false → writeTo a i = none → hasTick i = false → t.rem a = s.rem a)

/-- 10_state section 5 (derived there): every step keeps the invariant of rule R22, from every state that has it. -/
def Obligations.StepKeepsTheInvariant : Prop :=
  ∀ s t : State, Inv s → step s = .next t → Inv t

/-- 10_state section 5 (derived there): the state after reset has it. -/
def Obligations.ResetStateHasTheInvariant : Prop := Inv State.reset

/-- 20_memory section 3, 42_tick section 1: the axes are independent: two states alike on one axis, and two operations that tick alike and write
that axis alike, give states alike on it, whatever the other axis holds and is asked. -/
def Obligations.AxesAreIndependent : Prop :=
  ∀ (a : Axis) (i j : Instr) (s t u v : State), isReset i = false → isReset j = false →
    hasTick i = hasTick j → writeTo a i = writeTo a j → SameOnAxis a s t →
    exec i s = .next u → exec j t = .next v → SameOnAxis a u v

/-- 10_state section 1 (decision D8): the lines and strobes are outputs only: two states alike in counters and indices stay so, and show the
same strobes, events and newly driven lines, whatever their lines and strobes held. -/
def Obligations.LinesAndStrobesAreOutputsOnly : Prop :=
  ∀ (i : Instr) (s t u v : State), (∀ a : Axis, s.rem a = t.rem a) → (∀ m : Motor, s.idx m = t.idx m) →
    exec i s = .next u → exec i t = .next v →
    (∀ a : Axis, u.rem a = v.rem a) ∧ (∀ m : Motor, u.idx m = v.idx m ∧ u.emit m = v.emit m) ∧
    pinEmissions u = pinEmissions v

/-- 43_cycle_ops section 5 (the port is the spec's decision D12, log 10): the port gives the whole counter at its address, the written value
right after a write, and reads 0 exactly when a tick would move nothing on the axis. -/
def Obligations.ReadPortShowsCompletion : Prop :=
  (∀ s : State, readPort s 0#1 = s.remH ∧ readPort s 1#1 = s.remV) ∧
  (∀ (i : Instr) (s t : State) (a : Axis) (v : Counter), exec i s = .next t → hostWrite i = some (a, v) →
    readPort t (addressOf a) = v) ∧
  ∀ (s t : State) (a : Axis), exec .tick s = .next t →
    (readPort s (addressOf a) = 0 ↔ ∀ m : Motor, m.axis = a → t.idx m = s.idx m)

/-- 70_reset section 2, the text of rule R164 (derived there): after a reset and any words without a reset, as long as a motor has received no
pattern its lines are as the reset drew them and its index is 0; the tick that then finds its axis not idle, be it TICK, TMOVH or TMOVV, emits
the pattern of index 1 or 7, by the counter's sign and the sense of the motor; so the first pattern a motor ever receives after a reset is one of these
two. The worked case: RESET, a move and TICK in succession. -/
def Obligations.FirstEmissionAfterReset : Prop :=
  (∀ (r s : State) (ws rest : List InputWord) (m : Motor),
    (exec .reset r = .next s ∨ s = { State.reset with inputs := ws ++ rest }) → s.inputs = ws ++ rest →
    (∀ w ∈ ws, isReset (decode w) = false) →
    (patternsTo m (runEmissions ws.length s) = [] →
      ∃ t : State, Host.Core.run core ws.length s = .next t ∧ t.coil m = s.coil m ∧ t.idx m = 0 ∧
        ∀ i : Instr, hasTick i = true → t.rem m.axis ≠ 0 → ∃ u : State, exec i t = .next u ∧
          u.idx m = (if motorSense m * sgn (t.rem m.axis).toInt = 1 then 1 else 7) ∧
          pinEmissionOfMotor u m =
            [⟨m, Config.phaseTable (if motorSense m * sgn (t.rem m.axis).toInt = 1 then 1 else 7)⟩]) ∧
    ∀ (p : Pattern) (ps : List Pattern), patternsTo m (runEmissions ws.length s) = p :: ps →
      p = Config.phaseTable 1 ∨ p = Config.phaseTable 7) ∧
  ∀ (r s t u : State) (a : Axis) (steps : Counter), steps ≠ 0 → exec .reset r = .next s →
    exec (moveOn a steps) s = .next t → exec .tick t = .next u →
    ∀ m : Motor, m.axis = a → t.coil m = s.coil m ∧
      u.idx m = (if motorSense m * sgn steps.toInt = 1 then 1 else 7) ∧
      pinEmissionOfMotor u m = [⟨m, Config.phaseTable (if motorSense m * sgn steps.toInt = 1 then 1 else 7)⟩]

/-! ### The transaction level -/

/-- 43_cycle_ops section 6, the text of rule R117 (derived there): each operation of the cycle level is, on counters, indices and events, the
source's sequence of atomic operations; RESET is a return to the initial state. -/
def Obligations.EachOperationIsItsTransactions : Prop :=
  ∀ (i : Instr) (s : State), ∃ t : State, exec i s = .next t ∧
    (isReset i = false →
      (txStateOf t, pinEmissions t) = txRun Config.phaseTable (txOpsOf i) (txStateOf s)) ∧
    (isReset i = true → txStateOf t = txInitial ∧ pinEmissions t = [])

/-- 43_cycle_ops section 6, the text of rule R117 (derived there): every run without a reset is a run of the source's machine, with the same
events in the same order. -/
def Obligations.EveryRunIsATransactionRun : Prop :=
  ∀ (ws rest : List InputWord) (s : State), s.inputs = ws ++ rest →
    (∀ w ∈ ws, isReset (decode w) = false) →
    ∃ t : State, Host.Core.run core ws.length s = .next t ∧ t.inputs = rest ∧
      (txStateOf t, runEmissions ws.length s) =
        txRun Config.phaseTable (ws.flatMap fun w => txOpsOf (decode w)) (txStateOf s)

/-- 43_cycle_ops section 6, the text of rule R117 (derived there), the converse: every finite sequence of the source's operations is produced by
one input word for each. -/
def Obligations.EveryTransactionRunIsARun : Prop :=
  ∀ (ops : List TxOp) (s : State) (rest : List InputWord), ops.all txOpInRange = true →
    ∃ ws : List InputWord, ws.length = ops.length ∧ (∀ w ∈ ws, isReset (decode w) = false) ∧
      ∃ t : State, Host.Core.run core ws.length { s with inputs := ws ++ rest } = .next t ∧ t.inputs = rest ∧
        (txStateOf t, runEmissions ws.length { s with inputs := ws ++ rest }) =
          txRun Config.phaseTable ops (txStateOf s)
end

