-- ==== Sys2Proof/Laws/Arith.lean ====
section
/-!
SUPPORT. The arithmetic of a step in plain integers (spec/42_tick.md rules R93, R95, R96): one lemma per function of Machine/Flags.lean.
-/

namespace Sys2Proof.Machine.ArithLaws

open Sys2Proof Sys2Proof.Machine

theorem counter_toInt_ne_zero {r : Counter} (h : r ≠ 0) : r.toInt ≠ 0 := fun e =>
  h (BitVec.eq_of_toInt_eq (by simpa using e))

theorem idle_iff (r : Counter) : idle r = true ↔ r = 0 := by simp [idle]

/-- The direction of a counter that is not zero is its sign. -/
theorem dir_eq_sgn {r : Counter} (h : r ≠ 0) : dir r = sgn r.toInt := by
  have := counter_toInt_ne_zero h
  unfold dir sgn
  split
  · rfl
  · rw [if_pos (by omega)]

theorem sgn_zero : sgn 0 = 0 := rfl

theorem dir_eq_one_or_neg_one (r : Counter) : dir r = 1 ∨ dir r = -1 := by
  unfold dir
  split <;> simp

/-- The remainder, as an integer. -/
theorem mod8_toNat (i : Int) : ((mod8 i).toNat : Int) = i % 8 := by
  have e : (mod8 i).toNat = (i % 8 % 8).toNat := by simp [mod8, BitVec.toNat_ofInt]
  rw [e]
  omega

theorem mod8_stored (i : PhaseIndex) : mod8 i.toNat = i := by
  apply BitVec.eq_of_toNat_eq
  have h := mod8_toNat i.toNat
  have := i.isLt
  omega

theorem lookup_stored (pt : PhaseTable) (i : PhaseIndex) : lookup pt i.toNat = pt i := by
  rw [lookup, mod8_stored]

/-- Two integers alike modulo 8 are one index. -/
theorem mod8_congr {i j : Int} (h : i % 8 = j % 8) : mod8 i = mod8 j := by simp [mod8, h]

theorem nextIndex_toNat (i : PhaseIndex) (d : Int) :
    ((nextIndex i d).toNat : Int) = ((i.toNat : Int) + 8 + d) % 8 :=
  mod8_toNat _

/-- The counter step in plain integers: one toward zero, with no overflow (42_tick R95). -/
theorem countDown_toInt {r : Counter} (h : r ≠ 0) : (countDown r).toInt = r.toInt - sgn r.toInt := by
  rw [countDown, dir_eq_sgn h]
  have h0 := counter_toInt_ne_zero h
  have hl := BitVec.toInt_lt (x := r)
  have hg := BitVec.le_toInt (x := r)
  unfold sgn
  rw [BitVec.toInt_ofInt, Int.bmod_eq_of_le]
  all_goals split <;> simp_all <;> omega

/-- The pattern a micro-step drives is the ROM's at the new index (42_tick R92; the lookup's remainder is the identity there, 40_phase_table
R74). -/
theorem advance_eq (pt : PhaseTable) (s : State) (m : Motor) (d : Int) :
    s.advance pt m d = s.drive m (nextIndex (s.idx m) d) (pt (nextIndex (s.idx m) d)) := by
  rw [State.advance, lookup_stored]

end Sys2Proof.Machine.ArithLaws
end

