-- ==== Sys2Proof/Laws/Decode.lean ====
section
/-!
SUPPORT. The fields of an assembled word (spec/30_encoding.md rule R51), read back by the decoder's own readers.
-/

namespace Sys2Proof.DecodeLaws

open Sys2Proof

/-- Each bit of an assembled word: the data bits below 32, the operation bits above. -/
theorem assembleFields_getLsbD (a : BitVec 4) (d : Counter) (k : Nat) :
    (assembleFields a d).getLsbD k = if k < 32 then d.getLsbD k else a.getLsbD (k - 32) := by
  unfold assembleFields
  rw [BitVec.getLsbD_setWidth, BitVec.getLsbD_append]
  by_cases h : k < 36
  · simp [h]
  · have h1 : ¬ k < 32 := by omega
    have h2 : a.getLsbD (k - 32) = false := BitVec.getLsbD_of_ge a _ (by omega)
    simp [h, h1, h2]

theorem rstBit_eq (w : InputWord) : rstBit w = w.getLsbD 35 := rfl
theorem tickBit_eq (w : InputWord) : tickBit w = w.getLsbD 34 := rfl
theorem wrEnBit_eq (w : InputWord) : wrEnBit w = w.getLsbD 33 := rfl
theorem wrAxisBit_eq (w : InputWord) : wrAxisBit w = w.getLsbD 32 := rfl

theorem rstBit_assembleFields (a : BitVec 4) (d : Counter) : rstBit (assembleFields a d) = a.getLsbD 3 := by
  rw [rstBit_eq, assembleFields_getLsbD]
  rfl
theorem tickBit_assembleFields (a : BitVec 4) (d : Counter) : tickBit (assembleFields a d) = a.getLsbD 2 := by
  rw [tickBit_eq, assembleFields_getLsbD]
  rfl
theorem wrEnBit_assembleFields (a : BitVec 4) (d : Counter) : wrEnBit (assembleFields a d) = a.getLsbD 1 := by
  rw [wrEnBit_eq, assembleFields_getLsbD]
  rfl
theorem wrAxisBit_assembleFields (a : BitVec 4) (d : Counter) : wrAxisBit (assembleFields a d) = a.getLsbD 0 := by
  rw [wrAxisBit_eq, assembleFields_getLsbD]
  rfl

/-- The operand comes back whole (30_encoding R52). -/
theorem wrData_assembleFields (a : BitVec 4) (d : Counter) : wrData (assembleFields a d) = d := by
  apply BitVec.eq_of_getLsbD_eq
  intro k hk
  rw [wrData, BitVec.getLsbD_extractLsb', assembleFields_getLsbD]
  simp [hk]

/-- Every word is the assembly of its four operation bits and its data (30_encoding R51). -/
theorem word_eq_assembleFields (w : InputWord) : w = assembleFields (w.extractLsb' 32 4) (wrData w) := by
  apply BitVec.eq_of_getLsbD_eq
  intro k hk
  rw [assembleFields_getLsbD]
  split
  · next h => simp [wrData, h]
  · next h =>
    have h4 : k - 32 < 4 := by omega
    have e : 32 + (k - 32) = k := by omega
    simp [h4, e]

/-- Masking with operation bits only. -/
theorem assembleFields_and_opBits (a m : BitVec 4) (d : Counter) :
    assembleFields a d &&& assembleFields m 0#32 = assembleFields (a &&& m) 0#32 := by
  apply BitVec.eq_of_getLsbD_eq
  intro k _
  simp only [BitVec.getLsbD_and, assembleFields_getLsbD]
  split <;> simp

/-- Two assembled words are equal only if their fields are. -/
theorem assembleFields_inj {a b : BitVec 4} {d e : Counter} (h : assembleFields a d = assembleFields b e) :
    a = b ∧ d = e := by
  constructor
  · apply BitVec.eq_of_getLsbD_eq
    intro k _
    have := congrArg (fun w : InputWord => w.getLsbD (k + 32)) h
    simpa [assembleFields_getLsbD] using this
  · rw [← wrData_assembleFields a d, h, wrData_assembleFields]

end Sys2Proof.DecodeLaws
end

