-- ==== Sys2Proof/Laws/PerInstr.lean ====
section
/-!
SUPPORT. Statements per instruction, about the instruction as syntax: its word matches its own row of the opcode map (spec/30_encoding.md rule R53).
-/

namespace Sys2Proof.Laws.EncodesItsRow

open Sys2Proof

/-- The instruction is well-formed, and its canonical word matches the row of the opcode map that bears its mnemonic. -/
def Statement (i : Instr) : Prop :=
  i.wellFormed = true ∧ ∃ r ∈ opcodeMap, r.mnemonic = mnemonicOf i ∧ rowMatches r (encode i) = true

/-- A row whose mask and pattern are operation bits matches an assembled word if it matches its operation bits. -/
theorem row_of_opBits {r : OpcodeRow} {a m : BitVec 4} {d : Counter} (hm : r.mask = assembleFields m 0#32)
    (hp : r.pattern = assembleFields (a &&& m) 0#32) : rowMatches r (assembleFields a d) = true := by
  rw [rowMatches, hm, hp, DecodeLaws.assembleFields_and_opBits, beq_self_eq_true]

theorem reset : Statement .reset :=
  ⟨rfl, ⟨"RESET", 0x800000000#36, 0x800000000#36⟩, by simp [opcodeMap], rfl, row_of_opBits (m := 0x8#4) rfl rfl⟩

theorem nop : Statement .nop :=
  ⟨rfl, ⟨"NOP", 0xE00000000#36, 0x000000000#36⟩, by simp [opcodeMap], rfl, row_of_opBits (m := 0xE#4) rfl rfl⟩

theorem tick : Statement .tick :=
  ⟨rfl, ⟨"TICK", 0xE00000000#36, 0x400000000#36⟩, by simp [opcodeMap], rfl, row_of_opBits (m := 0xE#4) rfl rfl⟩

theorem movh (steps : Counter) : Statement (.movh steps) :=
  ⟨rfl, ⟨"MOVH", 0xF00000000#36, 0x200000000#36⟩, by simp [opcodeMap], rfl, row_of_opBits (m := 0xF#4) rfl rfl⟩

theorem movv (steps : Counter) : Statement (.movv steps) :=
  ⟨rfl, ⟨"MOVV", 0xF00000000#36, 0x300000000#36⟩, by simp [opcodeMap], rfl, row_of_opBits (m := 0xF#4) rfl rfl⟩

theorem tmovh (steps : Counter) : Statement (.tmovh steps) :=
  ⟨rfl, ⟨"TMOVH", 0xF00000000#36, 0x600000000#36⟩, by simp [opcodeMap], rfl, row_of_opBits (m := 0xF#4) rfl rfl⟩

theorem tmovv (steps : Counter) : Statement (.tmovv steps) :=
  ⟨rfl, ⟨"TMOVV", 0xF00000000#36, 0x700000000#36⟩, by simp [opcodeMap], rfl, row_of_opBits (m := 0xF#4) rfl rfl⟩

end Sys2Proof.Laws.EncodesItsRow
end

