-- ==== Sys2Proof/Laws/State.lean ====
section
/-!
SUPPORT. The small lemmas of the state: one per field per update, so that no later proof unfolds a record update; then the same by axis and by
motor.
-/

namespace Sys2Proof.Machine.StateLaws

open Sys2Proof Sys2Proof.Machine

/-! `rem[a] <- v`: one counter, nothing else. -/

@[simp] theorem setRem_h_remH (s : State) (v : Counter) : (s.setRem .h v).remH = v := rfl
@[simp] theorem setRem_h_remV (s : State) (v : Counter) : (s.setRem .h v).remV = s.remV := rfl
@[simp] theorem setRem_v_remH (s : State) (v : Counter) : (s.setRem .v v).remH = s.remH := rfl
@[simp] theorem setRem_v_remV (s : State) (v : Counter) : (s.setRem .v v).remV = v := rfl
@[simp] theorem setRem_idx0 (s : State) (a : Axis) (v : Counter) : (s.setRem a v).idx0 = s.idx0 := by cases a <;> rfl
@[simp] theorem setRem_idx1 (s : State) (a : Axis) (v : Counter) : (s.setRem a v).idx1 = s.idx1 := by cases a <;> rfl
@[simp] theorem setRem_idx2 (s : State) (a : Axis) (v : Counter) : (s.setRem a v).idx2 = s.idx2 := by cases a <;> rfl
@[simp] theorem setRem_coil0 (s : State) (a : Axis) (v : Counter) :
    (s.setRem a v).coil0 = s.coil0 := by cases a <;> rfl
@[simp] theorem setRem_coil1 (s : State) (a : Axis) (v : Counter) :
    (s.setRem a v).coil1 = s.coil1 := by cases a <;> rfl
@[simp] theorem setRem_coil2 (s : State) (a : Axis) (v : Counter) :
    (s.setRem a v).coil2 = s.coil2 := by cases a <;> rfl
@[simp] theorem setRem_emit0 (s : State) (a : Axis) (v : Counter) :
    (s.setRem a v).emit0 = s.emit0 := by cases a <;> rfl
@[simp] theorem setRem_emit1 (s : State) (a : Axis) (v : Counter) :
    (s.setRem a v).emit1 = s.emit1 := by cases a <;> rfl
@[simp] theorem setRem_emit2 (s : State) (a : Axis) (v : Counter) :
    (s.setRem a v).emit2 = s.emit2 := by cases a <;> rfl
@[simp] theorem setRem_inputs (s : State) (a : Axis) (v : Counter) :
    (s.setRem a v).inputs = s.inputs := by cases a <;> rfl
@[simp] theorem setRem_undriven (s : State) (a : Axis) (v : Counter) : (s.setRem a v).undriven = s.undriven := by cases a <;> rfl
@[simp] theorem setRem_resets (s : State) (a : Axis) (v : Counter) :
    (s.setRem a v).resets = s.resets := by cases a <;> rfl

/-! `emit[m] <- b`: one strobe, nothing else. -/

@[simp] theorem setEmit_horizontal_emit0 (s : State) (b : Bool) : (s.setEmit .horizontal b).emit0 = b := rfl
@[simp] theorem setEmit_horizontal_emit1 (s : State) (b : Bool) : (s.setEmit .horizontal b).emit1 = s.emit1 := rfl
@[simp] theorem setEmit_horizontal_emit2 (s : State) (b : Bool) : (s.setEmit .horizontal b).emit2 = s.emit2 := rfl
@[simp] theorem setEmit_verticalLeft_emit0 (s : State) (b : Bool) : (s.setEmit .verticalLeft b).emit0 = s.emit0 := rfl
@[simp] theorem setEmit_verticalLeft_emit1 (s : State) (b : Bool) : (s.setEmit .verticalLeft b).emit1 = b := rfl
@[simp] theorem setEmit_verticalLeft_emit2 (s : State) (b : Bool) : (s.setEmit .verticalLeft b).emit2 = s.emit2 := rfl
@[simp] theorem setEmit_verticalRight_emit0 (s : State) (b : Bool) :
    (s.setEmit .verticalRight b).emit0 = s.emit0 := rfl
@[simp] theorem setEmit_verticalRight_emit1 (s : State) (b : Bool) :
    (s.setEmit .verticalRight b).emit1 = s.emit1 := rfl
@[simp] theorem setEmit_verticalRight_emit2 (s : State) (b : Bool) : (s.setEmit .verticalRight b).emit2 = b := rfl
@[simp] theorem setEmit_remH (s : State) (m : Motor) (b : Bool) : (s.setEmit m b).remH = s.remH := by cases m <;> rfl
@[simp] theorem setEmit_remV (s : State) (m : Motor) (b : Bool) : (s.setEmit m b).remV = s.remV := by cases m <;> rfl
@[simp] theorem setEmit_idx0 (s : State) (m : Motor) (b : Bool) : (s.setEmit m b).idx0 = s.idx0 := by cases m <;> rfl
@[simp] theorem setEmit_idx1 (s : State) (m : Motor) (b : Bool) : (s.setEmit m b).idx1 = s.idx1 := by cases m <;> rfl
@[simp] theorem setEmit_idx2 (s : State) (m : Motor) (b : Bool) : (s.setEmit m b).idx2 = s.idx2 := by cases m <;> rfl
@[simp] theorem setEmit_coil0 (s : State) (m : Motor) (b : Bool) :
    (s.setEmit m b).coil0 = s.coil0 := by cases m <;> rfl
@[simp] theorem setEmit_coil1 (s : State) (m : Motor) (b : Bool) :
    (s.setEmit m b).coil1 = s.coil1 := by cases m <;> rfl
@[simp] theorem setEmit_coil2 (s : State) (m : Motor) (b : Bool) :
    (s.setEmit m b).coil2 = s.coil2 := by cases m <;> rfl
@[simp] theorem setEmit_inputs (s : State) (m : Motor) (b : Bool) :
    (s.setEmit m b).inputs = s.inputs := by cases m <;> rfl
@[simp] theorem setEmit_undriven (s : State) (m : Motor) (b : Bool) : (s.setEmit m b).undriven = s.undriven := by cases m <;> rfl
@[simp] theorem setEmit_resets (s : State) (m : Motor) (b : Bool) :
    (s.setEmit m b).resets = s.resets := by cases m <;> rfl

/-! The clearing of the strobes. -/

@[simp] theorem clearEmits_remH (s : State) : s.clearEmits.remH = s.remH := rfl
@[simp] theorem clearEmits_remV (s : State) : s.clearEmits.remV = s.remV := rfl
@[simp] theorem clearEmits_idx0 (s : State) : s.clearEmits.idx0 = s.idx0 := rfl
@[simp] theorem clearEmits_idx1 (s : State) : s.clearEmits.idx1 = s.idx1 := rfl
@[simp] theorem clearEmits_idx2 (s : State) : s.clearEmits.idx2 = s.idx2 := rfl
@[simp] theorem clearEmits_coil0 (s : State) : s.clearEmits.coil0 = s.coil0 := rfl
@[simp] theorem clearEmits_coil1 (s : State) : s.clearEmits.coil1 = s.coil1 := rfl
@[simp] theorem clearEmits_coil2 (s : State) : s.clearEmits.coil2 = s.coil2 := rfl
@[simp] theorem clearEmits_emit0 (s : State) : s.clearEmits.emit0 = false := rfl
@[simp] theorem clearEmits_emit1 (s : State) : s.clearEmits.emit1 = false := rfl
@[simp] theorem clearEmits_emit2 (s : State) : s.clearEmits.emit2 = false := rfl
@[simp] theorem clearEmits_inputs (s : State) : s.clearEmits.inputs = s.inputs := rfl
@[simp] theorem clearEmits_undriven (s : State) : s.clearEmits.undriven = s.undriven := rfl
@[simp] theorem clearEmits_resets (s : State) : s.clearEmits.resets = s.resets := rfl

/-! Driving one motor: its index, its lines, its strobe, nothing else. -/

@[simp] theorem drive_horizontal_idx0 (s : State) (i : PhaseIndex) (p : Pattern) :
    (s.drive .horizontal i p).idx0 = i := rfl
@[simp] theorem drive_horizontal_coil0 (s : State) (i : PhaseIndex) (p : Pattern) :
    (s.drive .horizontal i p).coil0 = p := rfl
@[simp] theorem drive_horizontal_emit0 (s : State) (i : PhaseIndex) (p : Pattern) :
    (s.drive .horizontal i p).emit0 = true := rfl
@[simp] theorem drive_horizontal_idx1 (s : State) (i : PhaseIndex) (p : Pattern) :
    (s.drive .horizontal i p).idx1 = s.idx1 := rfl
@[simp] theorem drive_horizontal_coil1 (s : State) (i : PhaseIndex) (p : Pattern) :
    (s.drive .horizontal i p).coil1 = s.coil1 := rfl
@[simp] theorem drive_horizontal_emit1 (s : State) (i : PhaseIndex) (p : Pattern) :
    (s.drive .horizontal i p).emit1 = s.emit1 := rfl
@[simp] theorem drive_horizontal_idx2 (s : State) (i : PhaseIndex) (p : Pattern) :
    (s.drive .horizontal i p).idx2 = s.idx2 := rfl
@[simp] theorem drive_horizontal_coil2 (s : State) (i : PhaseIndex) (p : Pattern) :
    (s.drive .horizontal i p).coil2 = s.coil2 := rfl
@[simp] theorem drive_horizontal_emit2 (s : State) (i : PhaseIndex) (p : Pattern) :
    (s.drive .horizontal i p).emit2 = s.emit2 := rfl
@[simp] theorem drive_verticalLeft_idx0 (s : State) (i : PhaseIndex) (p : Pattern) :
    (s.drive .verticalLeft i p).idx0 = s.idx0 := rfl
@[simp] theorem drive_verticalLeft_coil0 (s : State) (i : PhaseIndex) (p : Pattern) :
    (s.drive .verticalLeft i p).coil0 = s.coil0 := rfl
@[simp] theorem drive_verticalLeft_emit0 (s : State) (i : PhaseIndex) (p : Pattern) :
    (s.drive .verticalLeft i p).emit0 = s.emit0 := rfl
@[simp] theorem drive_verticalLeft_idx1 (s : State) (i : PhaseIndex) (p : Pattern) :
    (s.drive .verticalLeft i p).idx1 = i := rfl
@[simp] theorem drive_verticalLeft_coil1 (s : State) (i : PhaseIndex) (p : Pattern) :
    (s.drive .verticalLeft i p).coil1 = p := rfl
@[simp] theorem drive_verticalLeft_emit1 (s : State) (i : PhaseIndex) (p : Pattern) :
    (s.drive .verticalLeft i p).emit1 = true := rfl
@[simp] theorem drive_verticalLeft_idx2 (s : State) (i : PhaseIndex) (p : Pattern) :
    (s.drive .verticalLeft i p).idx2 = s.idx2 := rfl
@[simp] theorem drive_verticalLeft_coil2 (s : State) (i : PhaseIndex) (p : Pattern) :
    (s.drive .verticalLeft i p).coil2 = s.coil2 := rfl
@[simp] theorem drive_verticalLeft_emit2 (s : State) (i : PhaseIndex) (p : Pattern) :
    (s.drive .verticalLeft i p).emit2 = s.emit2 := rfl
@[simp] theorem drive_verticalRight_idx0 (s : State) (i : PhaseIndex) (p : Pattern) :
    (s.drive .verticalRight i p).idx0 = s.idx0 := rfl
@[simp] theorem drive_verticalRight_coil0 (s : State) (i : PhaseIndex) (p : Pattern) :
    (s.drive .verticalRight i p).coil0 = s.coil0 := rfl
@[simp] theorem drive_verticalRight_emit0 (s : State) (i : PhaseIndex) (p : Pattern) :
    (s.drive .verticalRight i p).emit0 = s.emit0 := rfl
@[simp] theorem drive_verticalRight_idx1 (s : State) (i : PhaseIndex) (p : Pattern) :
    (s.drive .verticalRight i p).idx1 = s.idx1 := rfl
@[simp] theorem drive_verticalRight_coil1 (s : State) (i : PhaseIndex) (p : Pattern) :
    (s.drive .verticalRight i p).coil1 = s.coil1 := rfl
@[simp] theorem drive_verticalRight_emit1 (s : State) (i : PhaseIndex) (p : Pattern) :
    (s.drive .verticalRight i p).emit1 = s.emit1 := rfl
@[simp] theorem drive_verticalRight_idx2 (s : State) (i : PhaseIndex) (p : Pattern) :
    (s.drive .verticalRight i p).idx2 = i := rfl
@[simp] theorem drive_verticalRight_coil2 (s : State) (i : PhaseIndex) (p : Pattern) :
    (s.drive .verticalRight i p).coil2 = p := rfl
@[simp] theorem drive_verticalRight_emit2 (s : State) (i : PhaseIndex) (p : Pattern) :
    (s.drive .verticalRight i p).emit2 = true := rfl
@[simp] theorem drive_remH (s : State) (m : Motor) (i : PhaseIndex) (p : Pattern) :
    (s.drive m i p).remH = s.remH := by cases m <;> rfl
@[simp] theorem drive_remV (s : State) (m : Motor) (i : PhaseIndex) (p : Pattern) :
    (s.drive m i p).remV = s.remV := by cases m <;> rfl
@[simp] theorem drive_inputs (s : State) (m : Motor) (i : PhaseIndex) (p : Pattern) :
    (s.drive m i p).inputs = s.inputs := by cases m <;> rfl
@[simp] theorem drive_undriven (s : State) (m : Motor) (i : PhaseIndex) (p : Pattern) :
    (s.drive m i p).undriven = s.undriven := by cases m <;> rfl
@[simp] theorem drive_resets (s : State) (m : Motor) (i : PhaseIndex) (p : Pattern) :
    (s.drive m i p).resets = s.resets := by cases m <;> rfl

/-! RESET: every register. -/

@[simp] theorem resetRegisters_remH (s : State) : s.resetRegisters.remH = 0 := rfl
@[simp] theorem resetRegisters_remV (s : State) : s.resetRegisters.remV = 0 := rfl
@[simp] theorem resetRegisters_idx0 (s : State) : s.resetRegisters.idx0 = 0 := rfl
@[simp] theorem resetRegisters_idx1 (s : State) : s.resetRegisters.idx1 = 0 := rfl
@[simp] theorem resetRegisters_idx2 (s : State) : s.resetRegisters.idx2 = 0 := rfl
@[simp] theorem resetRegisters_coil0 (s : State) :
    s.resetRegisters.coil0 = Config.coilReset (s.resets + 1) .horizontal := rfl
@[simp] theorem resetRegisters_coil1 (s : State) :
    s.resetRegisters.coil1 = Config.coilReset (s.resets + 1) .verticalLeft := rfl
@[simp] theorem resetRegisters_coil2 (s : State) :
    s.resetRegisters.coil2 = Config.coilReset (s.resets + 1) .verticalRight := rfl
@[simp] theorem resetRegisters_emit0 (s : State) : s.resetRegisters.emit0 = false := rfl
@[simp] theorem resetRegisters_emit1 (s : State) : s.resetRegisters.emit1 = false := rfl
@[simp] theorem resetRegisters_emit2 (s : State) : s.resetRegisters.emit2 = false := rfl
@[simp] theorem resetRegisters_inputs (s : State) : s.resetRegisters.inputs = s.inputs := rfl
@[simp] theorem resetRegisters_undriven (s : State) : s.resetRegisters.undriven = s.undriven := rfl
@[simp] theorem resetRegisters_resets (s : State) : s.resetRegisters.resets = s.resets + 1 := rfl

/-! The edge on the input pins: the sampled word goes, nothing else. -/

@[simp] theorem afterSample_remH (s : State) : s.afterSample.remH = s.remH := by
  unfold State.afterSample; split <;> rfl
@[simp] theorem afterSample_remV (s : State) : s.afterSample.remV = s.remV := by
  unfold State.afterSample; split <;> rfl
@[simp] theorem afterSample_idx0 (s : State) : s.afterSample.idx0 = s.idx0 := by
  unfold State.afterSample; split <;> rfl
@[simp] theorem afterSample_idx1 (s : State) : s.afterSample.idx1 = s.idx1 := by
  unfold State.afterSample; split <;> rfl
@[simp] theorem afterSample_idx2 (s : State) : s.afterSample.idx2 = s.idx2 := by
  unfold State.afterSample; split <;> rfl
@[simp] theorem afterSample_coil0 (s : State) : s.afterSample.coil0 = s.coil0 := by
  unfold State.afterSample; split <;> rfl
@[simp] theorem afterSample_coil1 (s : State) : s.afterSample.coil1 = s.coil1 := by
  unfold State.afterSample; split <;> rfl
@[simp] theorem afterSample_coil2 (s : State) : s.afterSample.coil2 = s.coil2 := by
  unfold State.afterSample; split <;> rfl
@[simp] theorem afterSample_emit0 (s : State) : s.afterSample.emit0 = s.emit0 := by
  unfold State.afterSample; split <;> rfl
@[simp] theorem afterSample_emit1 (s : State) : s.afterSample.emit1 = s.emit1 := by
  unfold State.afterSample; split <;> rfl
@[simp] theorem afterSample_emit2 (s : State) : s.afterSample.emit2 = s.emit2 := by
  unfold State.afterSample; split <;> rfl
@[simp] theorem afterSample_resets (s : State) : s.afterSample.resets = s.resets := by
  unfold State.afterSample; split <;> rfl
@[simp] theorem afterSample_inputs (s : State) : s.afterSample.inputs = s.inputs.tail := by
  unfold State.afterSample; split <;> simp_all

/-- An edge for which a word is named. -/
theorem sampledWord_cons {s : State} {w : InputWord} {rest : List InputWord} (h : s.inputs = w :: rest) :
    s.sampledWord = w := by
  simp [State.sampledWord, h]
theorem afterSample_cons {s : State} {w : InputWord} {rest : List InputWord} (h : s.inputs = w :: rest) :
    s.afterSample = { s with inputs := rest } := by
  simp [State.afterSample, h]

/-- An edge for which none is named. -/
theorem sampledWord_nil {s : State} (h : s.inputs = []) : s.sampledWord = Config.undrivenWord s.undriven := by
  simp [State.sampledWord, h]
theorem afterSample_nil {s : State} (h : s.inputs = []) : s.afterSample = { s with undriven := s.undriven + 1 } := by
  simp [State.afterSample, h]

/-! The accessors by axis and motor. -/

@[simp] theorem rem_h (s : State) : s.rem .h = s.remH := rfl
@[simp] theorem rem_v (s : State) : s.rem .v = s.remV := rfl
@[simp] theorem idx_horizontal (s : State) : s.idx .horizontal = s.idx0 := rfl
@[simp] theorem idx_verticalLeft (s : State) : s.idx .verticalLeft = s.idx1 := rfl
@[simp] theorem idx_verticalRight (s : State) : s.idx .verticalRight = s.idx2 := rfl
@[simp] theorem coil_horizontal (s : State) : s.coil .horizontal = s.coil0 := rfl
@[simp] theorem coil_verticalLeft (s : State) : s.coil .verticalLeft = s.coil1 := rfl
@[simp] theorem coil_verticalRight (s : State) : s.coil .verticalRight = s.coil2 := rfl
@[simp] theorem emit_horizontal (s : State) : s.emit .horizontal = s.emit0 := rfl
@[simp] theorem emit_verticalLeft (s : State) : s.emit .verticalLeft = s.emit1 := rfl
@[simp] theorem emit_verticalRight (s : State) : s.emit .verticalRight = s.emit2 := rfl

/-- A write of one counter, read back through either. -/
theorem rem_setRem (s : State) (a b : Axis) (v : Counter) :
    (s.setRem a v).rem b = if b = a then v else s.rem b := by
  cases a <;> cases b <;> rfl

@[simp] theorem idx_setRem (s : State) (a : Axis) (v : Counter) (m : Motor) : (s.setRem a v).idx m = s.idx m := by
  cases a <;> cases m <;> rfl
@[simp] theorem coil_setRem (s : State) (a : Axis) (v : Counter) (m : Motor) : (s.setRem a v).coil m = s.coil m := by
  cases a <;> cases m <;> rfl
@[simp] theorem emit_setRem (s : State) (a : Axis) (v : Counter) (m : Motor) : (s.setRem a v).emit m = s.emit m := by
  cases a <;> cases m <;> rfl
@[simp] theorem rem_clearEmits (s : State) (a : Axis) : s.clearEmits.rem a = s.rem a := by cases a <;> rfl
@[simp] theorem idx_clearEmits (s : State) (m : Motor) : s.clearEmits.idx m = s.idx m := by cases m <;> rfl
@[simp] theorem coil_clearEmits (s : State) (m : Motor) : s.clearEmits.coil m = s.coil m := by cases m <;> rfl
@[simp] theorem emit_clearEmits (s : State) (m : Motor) : s.clearEmits.emit m = false := by cases m <;> rfl
@[simp] theorem rem_resetRegisters (s : State) (a : Axis) : s.resetRegisters.rem a = 0 := by cases a <;> rfl
@[simp] theorem idx_resetRegisters (s : State) (m : Motor) : s.resetRegisters.idx m = 0 := by cases m <;> rfl
@[simp] theorem emit_resetRegisters (s : State) (m : Motor) : s.resetRegisters.emit m = false := by cases m <;> rfl
@[simp] theorem coil_resetRegisters (s : State) (m : Motor) :
    s.resetRegisters.coil m = Config.coilReset (s.resets + 1) m := by
  cases m <;> rfl
@[simp] theorem rem_afterSample (s : State) (a : Axis) : s.afterSample.rem a = s.rem a := by cases a <;> simp
@[simp] theorem idx_afterSample (s : State) (m : Motor) : s.afterSample.idx m = s.idx m := by cases m <;> simp
@[simp] theorem coil_afterSample (s : State) (m : Motor) : s.afterSample.coil m = s.coil m := by cases m <;> simp
@[simp] theorem emit_afterSample (s : State) (m : Motor) : s.afterSample.emit m = s.emit m := by cases m <;> simp

@[simp] theorem rem_withInputs (s : State) (r : List InputWord) (a : Axis) :
    State.rem { s with inputs := r } a = s.rem a := by
  cases a <;> rfl
@[simp] theorem idx_withInputs (s : State) (r : List InputWord) (m : Motor) :
    State.idx { s with inputs := r } m = s.idx m := by
  cases m <;> rfl
@[simp] theorem coil_withInputs (s : State) (r : List InputWord) (m : Motor) :
    State.coil { s with inputs := r } m = s.coil m := by
  cases m <;> rfl
@[simp] theorem emit_withInputs (s : State) (r : List InputWord) (m : Motor) :
    State.emit { s with inputs := r } m = s.emit m := by
  cases m <;> rfl

/-- Two states are one if every register and every field of the model's own agree. -/
theorem state_eq_of_fields {s t : State} (hr : ∀ a, s.rem a = t.rem a)
    (hm : ∀ m, s.idx m = t.idx m ∧ s.coil m = t.coil m ∧ s.emit m = t.emit m)
    (hi : s.inputs = t.inputs) (hu : s.undriven = t.undriven) (hn : s.resets = t.resets) : s = t := by
  obtain ⟨a1, b1, c1⟩ := hm .horizontal
  obtain ⟨a2, b2, c2⟩ := hm .verticalLeft
  obtain ⟨a3, b3, c3⟩ := hm .verticalRight
  have h := hr .h
  have v := hr .v
  cases s
  cases t
  simp_all

end Sys2Proof.Machine.StateLaws
end

