-- ==== Sys2Proof/Laws/Tick.lean ====
section
/-!
SUPPORT. Everything the two halves of a tick can do (spec/42_tick.md rules R91, R92, R94), said once, for any phase table.
-/

namespace Sys2Proof.Machine.TickLaws

open Sys2Proof Sys2Proof.Machine Sys2Proof.Machine.StateLaws Sys2Proof.Machine.ArithLaws

/-- The horizontal half: skipped, or one micro-step and one count. -/
theorem tickH_cases (pt : PhaseTable) (s : State) :
    (s.remH = 0 ∧ tickH pt s = s.setEmit .horizontal false) ∨
    (s.remH ≠ 0 ∧ tickH pt s =
      (s.drive .horizontal (nextIndex s.idx0 (sgn s.remH.toInt)) (pt (nextIndex s.idx0 (sgn s.remH.toInt)))).setRem .h
        (countDown s.remH)) := by
  by_cases h : s.remH = 0
  · exact .inl ⟨h, by simp [tickH, idle, h]⟩
  · refine .inr ⟨h, ?_⟩
    have hi : idle s.remH = false := by simpa [idle] using h
    simp [tickH, hi, dir_eq_sgn h, advance_eq]

/-- The vertical half: skipped, or one mirrored micro-step of both motors and one count. -/
theorem tickV_cases (pt : PhaseTable) (s : State) :
    (s.remV = 0 ∧ tickV pt s = (s.setEmit .verticalLeft false).setEmit .verticalRight false) ∨
    (s.remV ≠ 0 ∧ tickV pt s =
      ((s.drive .verticalLeft (nextIndex s.idx1 (sgn s.remV.toInt)) (pt (nextIndex s.idx1 (sgn s.remV.toInt)))).drive
        .verticalRight (nextIndex s.idx2 (-sgn s.remV.toInt)) (pt (nextIndex s.idx2 (-sgn s.remV.toInt)))).setRem .v
        (countDown s.remV)) := by
  by_cases h : s.remV = 0
  · exact .inl ⟨h, by simp [tickV, idle, h]⟩
  · refine .inr ⟨h, ?_⟩
    have hi : idle s.remV = false := by simpa [idle] using h
    simp [tickV, hi, dir_eq_sgn h, advance_eq]

/-- The frame of the horizontal half. -/
theorem tickH_frame (pt : PhaseTable) (s : State) :
    (tickH pt s).remV = s.remV ∧ (tickH pt s).idx1 = s.idx1 ∧ (tickH pt s).idx2 = s.idx2 ∧
    (tickH pt s).coil1 = s.coil1 ∧ (tickH pt s).coil2 = s.coil2 ∧ (tickH pt s).emit1 = s.emit1 ∧
    (tickH pt s).emit2 = s.emit2 ∧ (tickH pt s).inputs = s.inputs ∧ (tickH pt s).undriven = s.undriven ∧
    (tickH pt s).resets = s.resets := by
  obtain ⟨-, e⟩ | ⟨-, e⟩ := tickH_cases pt s <;> simp [e]

/-- The frame of the vertical half. -/
theorem tickV_frame (pt : PhaseTable) (s : State) :
    (tickV pt s).remH = s.remH ∧ (tickV pt s).idx0 = s.idx0 ∧ (tickV pt s).coil0 = s.coil0 ∧
    (tickV pt s).emit0 = s.emit0 ∧ (tickV pt s).inputs = s.inputs ∧ (tickV pt s).undriven = s.undriven ∧
    (tickV pt s).resets = s.resets := by
  obtain ⟨-, e⟩ | ⟨-, e⟩ := tickV_cases pt s <;> simp [e]

/-- A whole tick touches none of the model's own fields. -/
theorem tick_frame (pt : PhaseTable) (s : State) :
    (tick pt s).inputs = s.inputs ∧ (tick pt s).undriven = s.undriven ∧ (tick pt s).resets = s.resets := by
  obtain ⟨-, -, -, -, hi, hu, hr⟩ := tickV_frame pt (tickH pt s)
  obtain ⟨-, -, -, -, -, -, -, ki, ku, kr⟩ := tickH_frame pt s
  exact ⟨hi.trans ki, hu.trans ku, hr.trans kr⟩

/-- The index, lines and strobe of each motor after a whole tick. -/
theorem tick_motor (pt : PhaseTable) (s : State) (m : Motor) :
    (s.rem m.axis = 0 ∧ (tick pt s).idx m = s.idx m ∧ (tick pt s).coil m = s.coil m ∧ (tick pt s).emit m = false) ∨
    (s.rem m.axis ≠ 0 ∧
      (tick pt s).idx m = nextIndex (s.idx m) (motorSense m * sgn (s.rem m.axis).toInt) ∧
      (tick pt s).coil m = pt (nextIndex (s.idx m) (motorSense m * sgn (s.rem m.axis).toInt)) ∧
      (tick pt s).emit m = true) := by
  obtain ⟨fv, f1, f2, f3, f4, -⟩ := tickH_frame pt s
  obtain ⟨-, g0, gc, ge, -⟩ : _ ∧ (tick pt s).idx0 = (tickH pt s).idx0 ∧ (tick pt s).coil0 = (tickH pt s).coil0 ∧
    (tick pt s).emit0 = (tickH pt s).emit0 ∧ _ := tickV_frame pt (tickH pt s)
  cases m with
  | horizontal =>
    obtain ⟨h, e⟩ | ⟨h, e⟩ := tickH_cases pt s
    · exact .inl ⟨h, by simp [g0, e], by simp [gc, e], by simp [ge, e]⟩
    · exact .inr ⟨h, by simp [g0, e, Motor.axis, motorSense], by simp [gc, e, Motor.axis, motorSense], by simp [ge, e]⟩
  | verticalLeft =>
    obtain ⟨h, e⟩ | ⟨h, e⟩ := tickV_cases pt (tickH pt s) <;> rw [fv] at h
    · exact .inl ⟨h, by simp [tick, e, f1], by simp [tick, e, f3], by simp [tick, e]⟩
    · exact .inr ⟨h, by simp [tick, e, f1, fv, Motor.axis, motorSense],
        by simp [tick, e, f1, fv, Motor.axis, motorSense], by simp [tick, e]⟩
  | verticalRight =>
    obtain ⟨h, e⟩ | ⟨h, e⟩ := tickV_cases pt (tickH pt s) <;> rw [fv] at h
    · exact .inl ⟨h, by simp [tick, e, f2], by simp [tick, e, f4], by simp [tick, e]⟩
    · exact .inr ⟨h, by simp [tick, e, f2, fv, Motor.axis, motorSense],
        by simp [tick, e, f2, fv, Motor.axis, motorSense], by simp [tick, e]⟩

/-- Each counter after a whole tick. -/
theorem tick_counter (pt : PhaseTable) (s : State) (a : Axis) :
    (tick pt s).rem a = if s.rem a = 0 then 0 else countDown (s.rem a) := by
  obtain ⟨fv, -⟩ := tickH_frame pt s
  obtain ⟨gh, -⟩ : (tick pt s).remH = (tickH pt s).remH ∧ _ := tickV_frame pt (tickH pt s)
  cases a with
  | h =>
    obtain ⟨h, e⟩ | ⟨h, e⟩ := tickH_cases pt s
    · rw [rem_h, gh, e, rem_h, if_pos h, setEmit_remH, h]
    · rw [rem_h, gh, e, rem_h, if_neg h, setRem_h_remH]
  | v =>
    obtain ⟨h, e⟩ | ⟨h, e⟩ := tickV_cases pt (tickH pt s) <;> rw [fv] at h
    · rw [tick, e, rem_v, rem_v, if_pos h, setEmit_remV, setEmit_remV, fv, h]
    · rw [tick, e, rem_v, rem_v, if_neg h, setRem_v_remV, fv]

/-- Each counter after a whole tick, in plain integers. -/
theorem tick_counter_toInt (pt : PhaseTable) (s : State) (a : Axis) :
    ((tick pt s).rem a).toInt = (s.rem a).toInt - sgn (s.rem a).toInt := by
  rw [tick_counter]
  split
  · next h => simp [h, sgn_zero]
  · next h => exact countDown_toInt h

end Sys2Proof.Machine.TickLaws
end

