-- ==== Sys2Proof/Laws/Step.lean ====
section
/-!
SUPPORT. What exec answers for each operation, what one edge does with the word on the pins, and runs one edge at a time.
-/

namespace Sys2Proof.Machine.StepLaws

open Sys2Proof Sys2Proof.Machine

theorem exec_reset (s : State) : exec .reset s = .next s.resetRegisters := rfl
theorem exec_nop (s : State) : exec .nop s = .next s.clearEmits := rfl
theorem exec_tick (s : State) : exec .tick s = .next (tick Config.phaseTable s) := rfl
theorem exec_movh (v : Counter) (s : State) : exec (.movh v) s = .next ((s.setRem .h v).clearEmits) := rfl
theorem exec_movv (v : Counter) (s : State) : exec (.movv v) s = .next ((s.setRem .v v).clearEmits) := rfl
theorem exec_tmovh (v : Counter) (s : State) :
    exec (.tmovh v) s = .next ((tick Config.phaseTable s).setRem .h v) := rfl
theorem exec_tmovv (v : Counter) (s : State) :
    exec (.tmovv v) s = .next ((tick Config.phaseTable s).setRem .v v) := rfl

theorem exec_moveOn (a : Axis) (v : Counter) (s : State) :
    exec (moveOn a v) s = .next ((s.setRem a v).clearEmits) := by
  cases a <;> rfl

/-- Everything an operation can do: which of the named operations over the registers it is. -/
theorem exec_next {i : Instr} {s t : State} (h : exec i s = .next t) :
    (i = .reset ∧ t = s.resetRegisters) ∨
    (hasTick i = false ∧ i = .nop ∧ t = s.clearEmits) ∨
    (hasTick i = false ∧ ∃ a v, i = moveOn a v ∧ t = (s.setRem a v).clearEmits) ∨
    (i = .tick ∧ t = tick Config.phaseTable s) ∨
    (hasTick i = true ∧ ∃ a v, hostWrite i = some (a, v) ∧ t = (tick Config.phaseTable s).setRem a v) := by
  cases i with
  | reset => exact .inl ⟨rfl, by cases h; rfl⟩
  | nop => exact .inr (.inl ⟨rfl, rfl, by cases h; rfl⟩)
  | tick => exact .inr (.inr (.inr (.inl ⟨rfl, by cases h; rfl⟩)))
  | movh v => exact .inr (.inr (.inl ⟨rfl, .h, v, rfl, by cases h; rfl⟩))
  | movv v => exact .inr (.inr (.inl ⟨rfl, .v, v, rfl, by cases h; rfl⟩))
  | tmovh v => exact .inr (.inr (.inr (.inr ⟨rfl, .h, v, rfl, by cases h; rfl⟩)))
  | tmovv v => exact .inr (.inr (.inr (.inr ⟨rfl, .v, v, rfl, by cases h; rfl⟩)))

/-- The fields that stand for the outside world neither influence an operation nor are touched by it. -/
theorem exec_withInputs {i : Instr} {s t : State} (r : List InputWord) (n : Nat) (h : exec i s = .next t) :
    exec i { s with inputs := r, undriven := n } = .next { t with inputs := r, undriven := n } := by
  have hH : ∀ x : State, tickH Config.phaseTable { x with inputs := r, undriven := n } =
      { tickH Config.phaseTable x with inputs := r, undriven := n } := fun x => by
    unfold tickH; dsimp only; split <;> rfl
  have hV : ∀ x : State, tickV Config.phaseTable { x with inputs := r, undriven := n } =
      { tickV Config.phaseTable x with inputs := r, undriven := n } := fun x => by
    unfold tickV; dsimp only; split <;> rfl
  have hT : tick Config.phaseTable { s with inputs := r, undriven := n } =
      { tick Config.phaseTable s with inputs := r, undriven := n } := by
    rw [tick, hH, hV]; rfl
  cases i <;> cases h
  · rfl
  · rfl
  · rw [exec_tick, hT]
  · rfl
  · rfl
  · rw [exec_tmovh, hT]; rfl
  · rw [exec_tmovv, hT]; rfl

/-- One more edge of an execution. -/
theorem executionAfter_succ {words : Nat → InputWord} {s t : State} {n : Nat} (h : executionAfter words s n = .next t) :
    executionAfter words s (n + 1) = exec (decode (words n)) t := by
  simp only [executionAfter, h]

/-- An execution begun one edge later. -/
theorem executionAfter_cons {words : Nat → InputWord} {s t : State} (h : exec (decode (words 0)) s = .next t) (n : Nat) :
    executionAfter words s (n + 1) = executionAfter (fun k => words (k + 1)) t n := by
  induction n with
  | zero => exact h
  | succ n ih => rw [executionAfter, ih]; rfl

/-- A run of one more edge, when that edge answers `t`. -/
theorem run_succ {s t : State} (n : Nat) (h : step s = .next t) :
    Host.Core.run Sys2Proof.core (n + 1) s = Host.Core.run Sys2Proof.core n t := by
  simp only [Host.Core.run, Sys2Proof.core, h]

/-- The events of a run of one more edge, when that edge answers `t`. -/
theorem runEmissions_succ {s t : State} (n : Nat) (h : step s = .next t) :
    runEmissions (n + 1) s = pinEmissions t ++ runEmissions n t := by
  simp only [runEmissions, h]

theorem patternsTo_append (m : Motor) (es fs : List Emission) :
    patternsTo m (es ++ fs) = patternsTo m es ++ patternsTo m fs := by
  simp [patternsTo, List.filterMap_append]

/-- What one motor shows of the last edge. -/
theorem patternsTo_pinEmissions (m : Motor) (s : State) :
    patternsTo m (pinEmissions s) = if s.emit m then [s.coil m] else [] := by
  cases m <;> cases h0 : s.emit0 <;> cases h1 : s.emit1 <;> cases h2 : s.emit2 <;>
    simp [patternsTo, pinEmissions, Motor.all, pinEmissionOfMotor, State.emit, State.coil, h0, h1, h2]

end Sys2Proof.Machine.StepLaws
end

