-- ==== Sys2Proof/Tests/Slice0.lean ====
section
/-!
SUPPORT. Tests of one edge each, with expected results from spec/95_test_vectors.md, and, for every statement with hypotheses, a concrete state and
operands that meet them. Where a line value is checked, the phase table is the spec's default one (spec/40_phase_table.md rule R72, log 11).
-/

namespace Sys2Proof.Tests

open Sys2Proof Sys2Proof.Machine

/-- A state with the given counters and indices, lines and strobes off, and words on the pins. -/
def stateOf (remH remV : Int) (i0 i1 i2 : PhaseIndex) (ws : List InputWord) : State where
  remH := BitVec.ofInt 32 remH
  remV := BitVec.ofInt 32 remV
  idx0 := i0
  idx1 := i1
  idx2 := i2
  coil0 := 0
  coil1 := 0
  coil2 := 0
  emit0 := false
  emit1 := false
  emit2 := false
  inputs := ws
  undriven := 0
  resets := 0

/-- What the spec's vectors list of a state: counters, indices, strobes. -/
def shown (s : State) : (Counter × Counter) × (PhaseIndex × PhaseIndex × PhaseIndex) × (Bool × Bool × Bool) :=
  ((s.remH, s.remV), (s.idx0, s.idx1, s.idx2), (s.emit0, s.emit1, s.emit2))

/-- The lines. -/
def lines (s : State) : Pattern × Pattern × Pattern := (s.coil0, s.coil1, s.coil2)

/-- The state an edge answers; the argument itself where it answers none. -/
def after (s : State) : State :=
  match step s with
  | .next t => t
  | .fault _ => s
  | .refused _ => s

/-! ### Decoding: words written out in the spec (30_encoding R53, R55, R56; 95_test_vectors section 2) -/

theorem test_decode_reset : decode 0x800000000#36 = .reset := by decide
theorem test_decode_reset_ignores_tick_and_write : decode 0xE00000009#36 = .reset := by decide
theorem test_decode_nop_ignored_bits : decode 0x1DEADBEEF#36 = .nop := by decide
theorem test_decode_tick_ignored_bits : decode 0x5DEADBEEF#36 = .tick := by decide
theorem test_decode_movh : decode 0x280000000#36 = .movh 0x80000000#32 := by decide
theorem test_decode_movv : decode 0x3FFFFFFFE#36 = .movv 0xFFFFFFFE#32 := by decide
theorem test_decode_tmovh : decode 0x6FFFFFFFD#36 = .tmovh 0xFFFFFFFD#32 := by decide
theorem test_decode_tmovv : decode 0x700000004#36 = .tmovv 4#32 := by decide
theorem test_encode_movv : encode (.movv 0xFFFFFFFE#32) = 0x3FFFFFFFE#36 := by decide
theorem test_table_word : decodeTableWord 40 0x200000003 = some (.movh 3#32) := by decide
/-- A number of more than 36 bits is no input word (log 13). -/
theorem test_table_word_too_wide : decodeTableWord 40 0x1000000000 = none := by decide
theorem test_decode_rejects_by_name : (match decodeNat 0x1000000000 with | .error e => some e | .ok _ => none) =
    some .tooWide := by decide

/-! ### Well-formedness: the range of a written operand (30_encoding R56) -/

theorem test_operand_lowest : operandInRange (-2147483648) = true := by decide
theorem test_operand_highest : operandInRange 2147483647 = true := by decide
theorem test_operand_too_low_refused : lineWellFormed (.movh (-2147483649)) = false := by decide
theorem test_operand_too_high_refused_movv : lineWellFormed (.movv 2147483648) = false := by decide
theorem test_operand_too_high_refused_tmovh : lineWellFormed (.tmovh 2147483648) = false := by decide
theorem test_operand_too_low_refused_tmovv : lineWellFormed (.tmovv (-2147483649)) = false := by decide
theorem test_assemble_refuses : assemble [.nop, .movh 2147483648] = none := by decide
/-- 30_encoding R56, R57: `MOVV -2`, `TICKS 2`, `STOPH`, `TICKS 0`. -/
theorem test_assemble : assemble [.movv (-2), .ticks 2, .stoph, .ticks 0] =
    some [0x3FFFFFFFE#36, 0x400000000#36, 0x400000000#36, 0x200000000#36] := by decide
theorem test_assemble_stopv : assemble [.stopv, .nops 1] = some [0x300000000#36, 0x000000000#36] := by decide

/-! ### One edge each -/

/-- CY8. -/
theorem test_reset : shown (after (stateOf 5 (-3) 6 1 7 [0xE00000009#36])) =
    ((0, 0), (0, 0, 0), (false, false, false)) := by decide
/-- CY1, CY2: the strobe of the last step is cleared. -/
theorem test_nop : shown (after { stateOf 2 0 5 0 0 [0x1DEADBEEF#36] with emit0 := true }) =
    ((2, 0), (5, 0, 0), (false, false, false)) := by decide
/-- T10. -/
theorem test_tick_vertical_negative : shown (after (stateOf 0 (-5) 0 3 6 [0x400000000#36])) =
    ((0, BitVec.ofInt 32 (-4)), (0, 2, 7), (false, true, true)) := by decide
/-- T11: the most negative counter, and the index wraps down. -/
theorem test_tick_most_negative : shown (after (stateOf (-2147483648) 0 0 0 0 [0x400000000#36])) =
    ((0x80000001#32, 0), (7, 0, 0), (true, false, false)) := by decide
/-- M9. -/
theorem test_movh : shown (after (stateOf 5 0 2 0 0 [0x2FFFFFFFF#36])) =
    ((0xFFFFFFFF#32, 0), (2, 0, 0), (false, false, false)) := by decide
/-- M8. -/
theorem test_movh_clears_strobes :
    shown (after { stateOf 0 0 0 0 0 [0x200000001#36] with emit0 := true, emit1 := true, emit2 := true }) =
    ((1, 0), (0, 0, 0), (false, false, false)) := by decide
/-- M4. -/
theorem test_movv : shown (after (stateOf 5 (-7) 0 0 0 [0x300000001#36])) =
    ((5, 1), (0, 0, 0), (false, false, false)) := by decide
/-- CY3. -/
theorem test_tmovh : shown (after (stateOf 1 0 1 0 0 [0x6FFFFFFFD#36])) =
    ((BitVec.ofInt 32 (-3), 0), (2, 0, 0), (true, false, false)) := by decide
/-- CY4. -/
theorem test_tmovh_from_idle : shown (after (stateOf 0 0 0 0 0 [0x600000002#36])) =
    ((2, 0), (0, 0, 0), (false, false, false)) := by decide
/-- CY7. -/
theorem test_tmovv : shown (after (stateOf 2 (-1) 5 2 6 [0x700000004#36])) =
    ((1, 4), (6, 1, 7), (true, true, true)) := by decide
/-- CY6. -/
theorem test_tmovv_zero : shown (after (stateOf 0 1 0 0 0 [0x700000000#36])) =
    ((0, 0), (0, 1, 7), (false, true, true)) := by decide

/-- T7, the lines, default table: the pattern is the new index's, the right motor mirrored. -/
theorem test_tick_lines : lines (tick Config.defaultTable (stateOf 1 1 0 0 0 [])) = (0x3#4, 0x3#4, 0x9#4) := by decide
/-- CY7, the events in order. -/
theorem test_tmovv_events : pinEmissions (tickThenWrite Config.defaultTable .v 4 (stateOf 2 (-1) 5 2 6 [])) =
    [⟨.horizontal, 0x8#4⟩, ⟨.verticalLeft, 0x3#4⟩, ⟨.verticalRight, 0x9#4⟩] := by decide
/-- EM2. -/
theorem test_setLines : setLinesOf ⟨.verticalRight, 0x9#4⟩ =
    [⟨.verticalRight, 0, true⟩, ⟨.verticalRight, 1, false⟩, ⟨.verticalRight, 2, false⟩, ⟨.verticalRight, 3, true⟩] := by
  decide
/-- LK7, LK10. -/
theorem test_lookup : (lookup Config.defaultTable (-9), lookup Config.defaultTable 5) = (0x9#4, 0xC#4) := by decide
/-- CY10. -/
theorem test_readPort : readPort (stateOf 0 (-2) 0 0 0 []) 1#1 = 0xFFFFFFFE#32 := by decide
/-- T10 at the transaction level. -/
theorem test_tx_tick : (txApply Config.defaultTable .tick ⟨0, -5, 0, 3, 6⟩).1 = ⟨0, -4, 0, 2, 7⟩ := by decide
/-- CY7 by the step function of 43_cycle_ops R116. -/
theorem test_stepFunction : shown (stepFunction Config.defaultTable (fun _ => 0) (stateOf 2 (-1) 5 2 6 []) 0x700000004#36).state =
    ((1, 4), (6, 1, 7), (true, true, true)) := by decide
/-- A word placed for the next edge is the one the next edge performs. -/
theorem test_withFetchWord : shown (after (State.reset.withFetchWord 40 0x200000003)) =
    ((3, 0), (0, 0, 0), (false, false, false)) := by decide

/-! ### Witnesses: states and operands that meet the hypotheses of each statement -/

theorem witness_DecodeUndoesEncode : (Instr.tmovv 0x80000000#32).wellFormed = true := by decide
theorem witness_IgnoredBitsDoNotMatter :
    ((0xE00000009#36)[35] = true ∧ (0x800000000#36)[35] = true) ∧
    ((0x5DEADBEEF#36)[33] = false ∧ 0x5DEADBEEF#36 &&& 0xE00000000#36 = 0x400000000#36 &&& 0xE00000000#36) := by decide
theorem witness_ExactlyOneOpcodeRowMatches :
    (opcodeMap.filter fun r => rowMatches r 0x7FFFFFFFF#36).map OpcodeRow.mnemonic = ["TMOVV"] := by decide
theorem witness_AssembledLinesDecodeToTheirOperations :
    assemble [.tmovv (-2147483648), .stoph] = some [0x780000000#36, 0x200000000#36] ∧
    assemble [.movh 2147483647] = some [0x27FFFFFFF#36] ∧
    ((-2147483648 : Int) ≤ -2147483648 ∧ (-2147483648 : Int) ≤ 2147483647) ∧
    ((-2147483649 : Int) < -2147483648 ∧ (2147483647 : Int) < 2147483648) := by decide
theorem witness_StepRunsTheDecodedInstruction :
    (stateOf 0 0 0 0 0 [0x200000003#36, 0x400000000#36]).inputs = 0x200000003#36 :: [0x400000000#36] := rfl
theorem witness_NothingAskedIsNop :
    (stateOf 1 1 0 0 0 [0x1DEADBEEF#36]).sampledWord[35] = false ∧
    (stateOf 1 1 0 0 0 [0x1DEADBEEF#36]).sampledWord[34] = false ∧
    (stateOf 1 1 0 0 0 [0x1DEADBEEF#36]).sampledWord[33] = false := by decide
theorem witness_UndrivenEdgePerformsAFreeWord : State.reset.inputs = [] := rfl
theorem witness_ExecutionsNeverEndAndAreRuns : (stateOf 5 (-5) 0 0 0 []).inputs = [] := rfl
theorem witness_StepEqualsTheStepFunction :
    (stateOf 2 (-1) 5 2 6 [0x700000004#36]).inputs = 0x700000004#36 :: [] := rfl
theorem witness_OperationsLeaveTheInputsAlone :
    (∃ t, exec .reset (stateOf 1 1 0 0 0 [0#36]) = .next t) ∧ ∃ t, exec (.tmovh 2) (stateOf 1 1 0 0 0 [0#36]) = .next t :=
  ⟨⟨_, rfl⟩, ⟨_, rfl⟩⟩
theorem witness_ResetWinsOverTickAndWrite :
    (stateOf 1 0 0 0 0 [0xE00000009#36]).inputs = 0xE00000009#36 :: [] ∧ (0xE00000009#36)[35] = true := ⟨rfl, rfl⟩
theorem witness_NopHoldsEverything :
    (stateOf 2 0 5 0 0 [0x1DEADBEEF#36, 0#36, 0x400000000#36]).inputs = [0x1DEADBEEF#36, 0#36] ++ [0x400000000#36] ∧
    ∀ w ∈ [0x1DEADBEEF#36, 0#36], decode w = .nop :=
  ⟨rfl, List.forall_mem_cons.mpr ⟨rfl, List.forall_mem_singleton.mpr rfl⟩⟩
theorem witness_MoveHorizontalOverwritesItsCounter : 0x280000000#36 &&& 0xF00000000#36 = 0x200000000#36 := by decide
theorem witness_MoveVerticalOverwritesTheSharedCounter :
    0x37FFFFFFF#36 &&& 0xF00000000#36 = 0x300000000#36 ∧
    ∃ t, exec (.movv 0x80000000#32) (stateOf 0 3 0 0 7 []) = .next t := ⟨by decide, _, rfl⟩
theorem witness_LastMoveWins : ∃ t, exec (moveOn .h 100) (stateOf 0 0 0 0 0 []) = .next t := ⟨_, rfl⟩
theorem witness_ZeroMoveCancels :
    (stateOf 0 0 0 0 0 []).rem .h = 0 ∧
    (stateOf 5 1 2 0 0 [0x400000000#36, 0x7FFFFFFFF#36]).inputs = [0x400000000#36, 0x7FFFFFFFF#36] ++ [] ∧
    noOtherWrite .h [0x400000000#36, 0x7FFFFFFFF#36] = true := ⟨by decide, rfl, by decide⟩
theorem witness_HorizontalTickPart :
    (stateOf 0 0 0 0 0 []).remH = 0 ∧ (stateOf (-1) 0 0 0 0 []).remH ≠ 0 ∧ (stateOf 2147483647 0 7 0 0 []).remH ≠ 0 := by
  decide
theorem witness_VerticalTickPart :
    (stateOf 0 0 0 0 0 []).remV = 0 ∧ (stateOf 0 1 0 7 0 []).remV ≠ 0 ∧ (stateOf 0 (-2147483648) 0 0 7 []).remV ≠ 0 := by
  decide
theorem witness_TickPartsCommute : 0x5DEADBEEF#36 &&& 0xE00000000#36 = 0x400000000#36 := by decide
theorem witness_IdleAxisIsSkipped :
    ((stateOf 0 4 3 0 0 [0x400000000#36, 0x400000000#36]).rem .h = 0 ∧
      (stateOf 0 4 3 0 0 [0x400000000#36, 0x400000000#36]).inputs = List.replicate 2 (encode .tick) ++ []) ∧
    ((stateOf 0 0 3 0 0 []).remH = 0 ∧ (stateOf 0 0 3 0 0 []).remV = 0) := by decide
theorem witness_DirectionIsTheSignOfTheCounter :
    (0x80000000#32 : Counter) ≠ 0 ∧ (1#32 : Counter) ≠ 0 ∧ ∃ t, exec (moveOn .v 1) (stateOf 0 (-3) 0 0 0 []) = .next t :=
  ⟨by decide, by decide, _, rfl⟩
theorem witness_CounterMovesTowardZero :
    (∃ t, exec .tick (stateOf 2147483647 (-2147483648) 0 0 0 []) = .next t) ∧
    0 ≤ ((stateOf 2147483647 (-2147483648) 0 0 0 []).rem .h).toInt ∧
    ((stateOf 2147483647 (-2147483648) 0 0 0 []).rem .v).toInt ≤ 0 ∧ (stateOf 1 (-1) 0 0 0 []).rem .v ≠ 0 :=
  ⟨⟨_, rfl⟩, by decide, by decide, by decide⟩
theorem witness_IndexStepWrapsModuloEight : ((1 : Int) = 1 ∨ (1 : Int) = -1) ∧ ((-1 : Int) = 1 ∨ (-1 : Int) = -1) := by
  decide
theorem witness_VerticalPairIsMirrored :
    (∃ t, exec (.tmovv 4) (stateOf 0 (-1) 0 0 7 []) = .next t) ∧ hasTick (.tmovv 4) = true ∧
    (stateOf 0 (-1) 0 0 7 []).remV ≠ 0 ∧ isReset (.tmovv 4) = false := ⟨⟨_, rfl⟩, rfl, by decide, rfl⟩
theorem witness_SameEdgeIsTickThenWrite :
    hasTick (.tmovv 4) = true ∧ hostWrite (.tmovv 4) = some (.v, 4) ∧
    ∃ u x, exec .tick (stateOf 2 (-1) 5 2 6 []) = .next u ∧ exec (moveOn .v 4) u = .next x :=
  ⟨rfl, rfl, _, _, rfl, rfl⟩
theorem witness_ClosedFormHorizontal :
    (stateOf 7 1 7 0 0 [0x2FFFFFFFF#36, 0x400000000#36, 0x700000004#36, 0#36]).inputs =
      0x2FFFFFFFF#36 :: ([0x400000000#36, 0x700000004#36] ++ [0#36]) ∧
    decode 0x2FFFFFFFF#36 = .movh 0xFFFFFFFF#32 ∧ noOtherWrite .h [0x400000000#36, 0x700000004#36] = true :=
  ⟨rfl, by decide, by decide⟩
theorem witness_ClosedFormVertical :
    (stateOf 7 1 7 0 0 [0x380000000#36, 0x400000000#36, 0x600000004#36]).inputs =
      0x380000000#36 :: ([0x400000000#36, 0x600000004#36] ++ []) ∧
    decode 0x380000000#36 = .movv 0x80000000#32 ∧ noOtherWrite .v [0x400000000#36, 0x600000004#36] = true :=
  ⟨rfl, by decide, by decide⟩
theorem witness_EmissionsFollowTheMove :
    (stateOf 0 0 0 0 7 [0x3FFFFFFFE#36, 0x400000000#36, 0x400000000#36]).inputs =
      0x3FFFFFFFE#36 :: ([0x400000000#36, 0x400000000#36] ++ []) ∧
    decode 0x3FFFFFFFE#36 = moveOn Motor.verticalRight.axis 0xFFFFFFFE#32 ∧
    noOtherWrite Motor.verticalRight.axis [0x400000000#36, 0x400000000#36] = true := ⟨rfl, by decide, by decide⟩
theorem witness_MoveCompletesIfTicksKeepComing :
    (ticksKeepComing (fun _ => 0x700000004#36) ∧
      ∀ n : Nat, leavesCounterToTicks .h (decode ((fun _ : Nat => 0x700000004#36) n)) = true) ∧
    ∀ n : Nat, leavesCounterToTicks .v (decode ((fun _ : Nat => 0x200000003#36) n)) = true ∧
      hasTick (decode ((fun _ : Nat => 0x200000003#36) n)) = false :=
  have h : hasTick (decode 0x700000004#36) = true ∧ leavesCounterToTicks .h (decode 0x700000004#36) = true ∧
      leavesCounterToTicks .v (decode 0x200000003#36) = true ∧ hasTick (decode 0x200000003#36) = false := by decide
  ⟨⟨fun n => ⟨n, Nat.le_refl n, h.1⟩, fun _ => h.2.1⟩, fun _ => h.2.2⟩
theorem witness_EmissionExactlyWhenAdvanced :
    ∃ t, exec (.tmovh 0) (stateOf 1 0 7 0 0 []) = .next t ∧ t.emit .horizontal = true ∧ t.emit .verticalLeft = false :=
  ⟨_, rfl, by decide, by decide⟩
theorem witness_PinsShowTheEvents : ∃ t, exec .tick (stateOf 1 (-1) 7 0 7 []) = .next t := ⟨_, rfl⟩
theorem witness_LinesHoldBetweenEmissions :
    (∃ t, exec .tick (stateOf 1 0 0 0 0 []) = .next t ∧ t.emit .horizontal = true ∧ t.emit .verticalLeft = false) ∧
    isReset .tick = false ∧ (stateOf 1 0 0 0 0 [0x400000000#36]).inputs = [0x400000000#36] ++ [] ∧
    (∀ w ∈ [0x400000000#36], isReset (decode w) = false) ∧
    patternsTo .verticalLeft (runEmissions 1 (stateOf 1 0 0 0 0 [0x400000000#36])) = [] :=
  ⟨⟨_, rfl, by decide, by decide⟩, rfl, rfl, List.forall_mem_singleton.mpr rfl, rfl⟩
theorem witness_VerticalStrobesAgreeAfterAnyStep :
    ∃ t, step { stateOf 0 1 0 0 0 [0x400000000#36] with emit1 := true } = .next t := ⟨_, rfl⟩
theorem witness_IndexMovesOnlyOnAnActiveTick :
    ∃ t, exec .tick (stateOf 0 (-1) 0 0 7 []) = .next t ∧ t.idx .verticalRight ≠ (stateOf 0 (-1) 0 0 7 []).idx .verticalRight :=
  ⟨_, rfl, by decide⟩
theorem witness_CounterAccessRights :
    (∃ t, exec (.tmovh 9) (stateOf 1 1 0 0 0 []) = .next t) ∧ isReset .reset = true ∧
    writeTo .h (.tmovh 9) = some 9 ∧ (isReset (.tmovh 9) = false ∧ writeTo .v (.tmovh 9) = none ∧ hasTick (.tmovh 9) = true) ∧
    (isReset (.movh 9) = false ∧ writeTo .v (.movh 9) = none ∧ hasTick (.movh 9) = false) :=
  ⟨⟨_, rfl⟩, rfl, rfl, ⟨rfl, rfl, rfl⟩, rfl, rfl, rfl⟩
theorem witness_StepKeepsTheInvariant :
    Inv { State.reset with remV := 1, inputs := [0x400000000#36] } ∧
    ∃ t, step { State.reset with remV := 1, inputs := [0x400000000#36] } = .next t :=
  ⟨⟨rfl, rfl, fun m => .inr (by cases m <;> exact ⟨rfl, rfl⟩)⟩, _, rfl⟩
theorem witness_AxesAreIndependent :
    isReset (.tmovv 4) = false ∧ isReset .tick = false ∧ hasTick (.tmovv 4) = hasTick .tick ∧
    writeTo .h (.tmovv 4) = writeTo .h .tick ∧ SameOnAxis .h (stateOf 1 2 3 4 5 []) (stateOf 1 (-9) 3 0 0 []) ∧
    (∃ u, exec (.tmovv 4) (stateOf 1 2 3 4 5 []) = .next u) ∧ ∃ v, exec .tick (stateOf 1 (-9) 3 0 0 []) = .next v :=
  ⟨rfl, rfl, rfl, rfl, ⟨rfl, fun m h => by cases m <;> first | exact ⟨rfl, rfl, rfl⟩ | cases h⟩, ⟨_, rfl⟩, _, rfl⟩
theorem witness_LinesAndStrobesAreOutputsOnly :
    (∀ a, (stateOf 1 1 0 0 0 []).rem a = State.rem { stateOf 1 1 0 0 0 [] with coil0 := 5, emit2 := true } a) ∧
    (∀ m, (stateOf 1 1 0 0 0 []).idx m = State.idx { stateOf 1 1 0 0 0 [] with coil0 := 5, emit2 := true } m) ∧
    (∃ u, exec .tick (stateOf 1 1 0 0 0 []) = .next u) ∧
    ∃ v, exec .tick { stateOf 1 1 0 0 0 [] with coil0 := 5, emit2 := true } = .next v :=
  ⟨fun a => by cases a <;> rfl, fun m => by cases m <;> rfl, ⟨_, rfl⟩, _, rfl⟩
theorem witness_ReadPortShowsCompletion :
    (∃ t, exec (.tmovv 4) (stateOf 0 1 0 0 0 []) = .next t) ∧ hostWrite (.tmovv 4) = some (.v, 4) ∧
    (∃ t, exec .tick (stateOf 0 1 0 0 0 []) = .next t) ∧ readPort (stateOf 0 1 0 0 0 []) (addressOf .h) = 0 ∧
    readPort (stateOf 0 1 0 0 0 []) (addressOf .v) ≠ 0 := ⟨⟨_, rfl⟩, rfl, ⟨_, rfl⟩, by decide, by decide⟩
/-- Both premises at once: no pattern yet with a counter waiting, and a first pattern by TMOVV. -/
theorem witness_FirstEmissionAfterReset_words :
    ((stateOf 5 5 1 2 3 []).resetRegisters.inputs = [] ∧ exec .reset (stateOf 5 5 1 2 3 []) = .next (stateOf 5 5 1 2 3 []).resetRegisters) ∧
    (∀ w ∈ [0x300000001#36, 0x700000004#36], isReset (decode w) = false) ∧
    patternsTo .horizontal (runEmissions 2 { State.reset with inputs := [0x300000001#36, 0x700000004#36] }) = [] ∧
    (∃ t, Host.Core.run core 1 { State.reset with inputs := [0x300000001#36, 0x700000004#36] } = .next t ∧
      t.rem .v ≠ 0 ∧ hasTick (.tmovv 4) = true) ∧
    patternsTo .verticalRight (runEmissions 1 { State.reset with inputs := [0x300000001#36, 0x700000004#36] }) = [] ∧
    patternsTo .verticalRight (runEmissions 2 { State.reset with inputs := [0x300000001#36, 0x700000004#36] }) =
      [Config.phaseTable 7] :=
  ⟨⟨rfl, rfl⟩, List.forall_mem_cons.mpr ⟨rfl, List.forall_mem_singleton.mpr rfl⟩, rfl, ⟨_, rfl, by decide, rfl⟩, rfl, rfl⟩
theorem witness_FirstEmissionAfterReset :
    (0x80000000#32 : Counter) ≠ 0 ∧ ∃ s t u, exec .reset (stateOf 5 5 1 2 3 []) = .next s ∧
      exec (moveOn .v 0x80000000#32) s = .next t ∧ exec .tick t = .next u := ⟨by decide, _, _, _, rfl, rfl, rfl⟩
theorem witness_EachOperationIsItsTransactions : isReset (.tmovh 1) = false ∧ isReset .reset = true := by decide
theorem witness_EveryRunIsATransactionRun :
    (stateOf 1 0 0 0 0 [0x6FFFFFFFD#36, 0x400000000#36]).inputs = [0x6FFFFFFFD#36] ++ [0x400000000#36] ∧
    ∀ w ∈ [0x6FFFFFFFD#36], isReset (decode w) = false := ⟨rfl, List.forall_mem_singleton.mpr rfl⟩
theorem witness_EveryTransactionRunIsARun :
    ([.moveH 2147483647, .tick, .moveV (-2147483648)] : List TxOp).all txOpInRange = true := by decide

end Sys2Proof.Tests
end

/-!
Every input word is an operation (spec/30_encoding.md rule R54): the host's number of a word decodes to the word's own operation, every operation
answers a next state, and an operation's canonical word decodes to that operation with its operand.
-/

namespace Sys2Proof.Proofs.Encoding

open Sys2Proof Sys2Proof.Machine

/-- A word read as a number keeps its 36 bits, so the host's question is answered by `decode` (30_encoding R51, log 13). -/
theorem decodeTableWord_toNat (w : InputWord) : decodeTableWord 36 w.toNat = some (decode w) := by
  have hlt : w.toNat < 2 ^ 36 := w.isLt
  rw [decodeTableWord, Nat.mod_eq_of_lt hlt, decodeNat, if_pos hlt, BitVec.ofNat_toNat, BitVec.setWidth_eq]
  rfl

/-- No operation faults or is refused (60_exceptions R130). -/
theorem exec_completes (i : Instr) (s : State) : ∃ t : State, exec i s = .next t := by
  cases i with
  | reset => exact ⟨_, StepLaws.exec_reset s⟩
  | nop => exact ⟨_, StepLaws.exec_nop s⟩
  | tick => exact ⟨_, StepLaws.exec_tick s⟩
  | movh steps => exact ⟨_, StepLaws.exec_movh steps s⟩
  | movv steps => exact ⟨_, StepLaws.exec_movv steps s⟩
  | tmovh steps => exact ⟨_, StepLaws.exec_tmovh steps s⟩
  | tmovv steps => exact ⟨_, StepLaws.exec_tmovv steps s⟩

/-- The operation bits of a canonical word select the operation's own row, and its data bits are the operand (30_encoding R52, R53). -/
theorem decode_encode (i : Instr) : decode (encode i) = i := by
  cases i <;>
    simp [encode, decode, DecodeLaws.rstBit_assembleFields, DecodeLaws.tickBit_assembleFields,
      DecodeLaws.wrEnBit_assembleFields, DecodeLaws.wrAxisBit_assembleFields, DecodeLaws.wrData_assembleFields]

/-- Settles O6: decoding is total on words and `exec` on operations; the four words with an operand are the canonical words of their operations. -/
theorem everyInputWordExecutes : Obligations.EveryInputWordExecutes :=
  ⟨fun w => ⟨decodeTableWord_toNat w, exec_completes (decode w)⟩,
    fun steps => ⟨decode_encode (.movh steps), decode_encode (.movv steps),
      decode_encode (.tmovh steps), decode_encode (.tmovv steps)⟩⟩

end Sys2Proof.Proofs.Encoding

/-!
The lookup's domain is every integer (spec/40_phase_table.md rule R74): it depends on its argument's remainder modulo 8 alone.
-/

namespace Sys2Proof.Proofs.PhaseTable

open Sys2Proof Sys2Proof.Machine

/-- An integer whose remainder is the stored index `j` is looked up as `j` itself. -/
theorem lookup_of_emod_eq (pt : PhaseTable) {i : Int} {j : PhaseIndex} (h : i % 8 = j.toNat) : lookup pt i = pt j := by
  have hmod : i % 8 = (j.toNat : Int) % 8 := by rw [← h, Int.emod_emod]
  calc lookup pt i = lookup pt j.toNat := congrArg pt (ArithLaws.mod8_congr hmod)
    _ = pt j := ArithLaws.lookup_stored pt j

/-- Settles O32: the index is `mod8 i`; in each corner case the remainder is the index named, and the default table holds `0x9` at 7. -/
theorem lookupTakesAnyInteger : Obligations.LookupTakesAnyInteger :=
  ⟨fun _ i => ⟨mod8 i, ArithLaws.mod8_toNat i, rfl⟩,
    ArithLaws.lookup_stored,
    fun pt => ⟨lookup_of_emod_eq pt (by decide), lookup_of_emod_eq pt (by decide),
      lookup_of_emod_eq pt (by decide), lookup_of_emod_eq pt (by decide)⟩,
    lookup_of_emod_eq (j := 7) Config.defaultTable (by decide)⟩

end Sys2Proof.Proofs.PhaseTable

/-!
The move requests (spec/41_move_request.md rules R80, R81, R84): their words, their answers, the drive of the next tick, and what holds while an
axis stands still.
-/

namespace Sys2Proof.Proofs.MoveRequest

open Sys2Proof Sys2Proof.Machine Sys2Proof.Machine.StateLaws

/-! The words of a move. -/

/-- The mask of a move's row keeps the four operation bits whole, so they are determined; the data bits are free (30_encoding R53). -/
theorem eq_assembleFields_of_masked {w : InputWord} {a : BitVec 4} (h : w &&& 0xF00000000#36 = assembleFields a 0#32) :
    w = assembleFields a (wrData w) := by
  have hw : w = assembleFields (w.extractLsb' 32 4) (wrData w) := DecodeLaws.word_eq_assembleFields w
  have hmask : w &&& 0xF00000000#36 = assembleFields (w.extractLsb' 32 4 &&& BitVec.allOnes 4) 0#32 := by
    rw [← DecodeLaws.assembleFields_and_opBits _ _ (wrData w), ← hw]
    rfl
  have hop : w.extractLsb' 32 4 &&& BitVec.allOnes 4 = a := (DecodeLaws.assembleFields_inj (hmask.symm.trans h)).1
  rw [BitVec.and_allOnes] at hop
  rwa [hop] at hw

/-- A word that matches an axis's move row is the canonical word of the move by its data bits. -/
theorem decode_of_moveRow (a : Axis) {w : InputWord} (h : w &&& 0xF00000000#36 = encode (moveOn a 0)) :
    decode w = moveOn a (wrData w) := by
  have hw : w = encode (moveOn a (wrData w)) := by
    cases a <;> exact eq_assembleFields_of_masked h
  calc decode w = decode (encode (moveOn a (wrData w))) := congrArg decode hw
    _ = moveOn a (wrData w) := Encoding.decode_encode _

/-! One edge. -/

/-- An edge for which a word is named performs that word's operation, the word gone from the pins (30_encoding R51). -/
theorem step_of_inputs_cons {s : State} {w : InputWord} {rest : List InputWord} (h : s.inputs = w :: rest) :
    step s = exec (decode w) { s with inputs := rest } := by
  rw [step, sampledWord_cons h, afterSample_cons h]

theorem pinEmissions_clearEmits (s : State) : pinEmissions s.clearEmits = [] := by
  simp [pinEmissions, pinEmissionOfMotor]

/-- Each index after a whole tick in plain integers, idle axis or not (42_tick R91, R92, R94). -/
theorem tick_idx_toNat (pt : PhaseTable) (s : State) (m : Motor) :
    (((tick pt s).idx m).toNat : Int) = ((s.idx m).toNat + motorSense m * sgn (s.rem m.axis).toInt) % 8 := by
  obtain ⟨hidle, hidx, -⟩ | ⟨-, hidx, -⟩ := TickLaws.tick_motor pt s m
  · have hlt := (s.idx m).isLt
    have hsgn : sgn (s.rem m.axis).toInt = 0 := by rw [hidle]; rfl
    rw [hidx, hsgn]
    omega
  · rw [hidx, ArithLaws.nextIndex_toNat]
    omega

/-- The tick after a move turns each motor of the axis in its own sense by the operand's sign (42_tick R93, R97). -/
theorem tick_after_move_idx (pt : PhaseTable) (s : State) (steps : Counter) (m : Motor) :
    (((tick pt (s.setRem m.axis steps).clearEmits).idx m).toNat : Int) =
      ((s.idx m).toNat + motorSense m * sgn steps.toInt) % 8 := by
  rw [tick_idx_toNat, idx_clearEmits, idx_setRem, rem_clearEmits, rem_setRem, if_pos rfl]

/-- Settles O19: the row fixes the operation bits; the answer is one counter write and the cleared strobes. -/
theorem moveHorizontalOverwritesItsCounter : Obligations.MoveHorizontalOverwritesItsCounter := by
  refine ⟨fun w hw => decode_of_moveRow .h hw, fun s steps => ?_, ?_⟩
  · exact ⟨_, StepLaws.exec_movh steps s, rfl, pinEmissions_clearEmits _⟩
  · have hdec : decode 0x200000003#36 = .movh 3 := decode_of_moveRow .h (by decide)
    rw [step_of_inputs_cons rfl, hdec, StepLaws.exec_movh]
    rfl

/-- Settles O20: as O19; the two vertical motors share the counter just written and have opposite senses at the next tick. -/
theorem moveVerticalOverwritesTheSharedCounter : Obligations.MoveVerticalOverwritesTheSharedCounter := by
  refine ⟨fun w hw => decode_of_moveRow .v hw, fun s steps => ?_, fun s t steps hmove => ?_, ?_⟩
  · exact ⟨_, StepLaws.exec_movv steps s, rfl, pinEmissions_clearEmits _⟩
  · rw [StepLaws.exec_movv] at hmove
    cases hmove
    have hleft := tick_after_move_idx Config.phaseTable s steps .verticalLeft
    have hright := tick_after_move_idx Config.phaseTable s steps .verticalRight
    refine ⟨_, StepLaws.exec_tick _, ?_, ?_⟩
    · simpa [Motor.axis, motorSense] using hleft
    · simpa [Motor.axis, motorSense, Int.sub_eq_add_neg] using hright
  · have hdec : decode 0x3FFFFFFFE#36 = .movv 0xFFFFFFFE#32 := decode_of_moveRow .v (by decide)
    rw [step_of_inputs_cons rfl, hdec, StepLaws.exec_movv]
    rfl

/-! An axis at rest. -/

/-- The axis is idle in `t`, and its motors stand and hold their lines as in `s` (41_move_request R84). -/
def RestsSince (a : Axis) (s t : State) : Prop :=
  t.rem a = 0 ∧ ∀ m : Motor, m.axis = a → t.idx m = s.idx m ∧ t.coil m = s.coil m

theorem RestsSince.trans {a : Axis} {s t u : State} (hst : RestsSince a s t) (htu : RestsSince a t u) :
    RestsSince a s u := by
  refine ⟨htu.1, fun m hm => ?_⟩
  obtain ⟨hidx, hcoil⟩ := hst.2 m hm
  obtain ⟨kidx, kcoil⟩ := htu.2 m hm
  exact ⟨kidx.trans hidx, kcoil.trans hcoil⟩

/-- A tick skips an idle axis (42_tick R91). -/
theorem tick_restsSince (pt : PhaseTable) {a : Axis} {s : State} (h : s.rem a = 0) : RestsSince a s (tick pt s) := by
  refine ⟨by rw [TickLaws.tick_counter, if_pos h], fun m hm => ?_⟩
  subst hm
  obtain ⟨-, hidx, hcoil, -⟩ | ⟨hne, -⟩ := TickLaws.tick_motor pt s m
  · exact ⟨hidx, hcoil⟩
  · exact absurd h hne

theorem clearEmits_restsSince {a : Axis} {s t : State} (h : RestsSince a s t) : RestsSince a s t.clearEmits := by
  simpa [RestsSince] using h

/-- A write to the other axis's counter. -/
theorem setRem_restsSince {a b : Axis} {s t : State} (v : Counter) (hab : a ≠ b) (h : RestsSince a s t) :
    RestsSince a s (t.setRem b v) := by
  simpa [RestsSince, rem_setRem, hab] using h

theorem hostWrite_moveOn (a : Axis) (v : Counter) : hostWrite (moveOn a v) = some (a, v) := by cases a <;> rfl

theorem leavesCounterToTicks_write_ne {a b : Axis} {i : Instr} {v : Counter} (h : leavesCounterToTicks a i = true)
    (hw : hostWrite i = some (b, v)) : a ≠ b := by
  simp only [leavesCounterToTicks, hw, Bool.and_eq_true, bne_iff_ne] at h
  exact h.2.symm

/-- An operation that neither resets nor writes an idle axis leaves it at rest. -/
theorem exec_restsSince {a : Axis} {i : Instr} {s t : State} (h : exec i s = .next t) (hr : s.rem a = 0)
    (hi : leavesCounterToTicks a i = true) : RestsSince a s t := by
  have hs : RestsSince a s s := ⟨hr, fun _ _ => ⟨rfl, rfl⟩⟩
  have htick := tick_restsSince Config.phaseTable hr
  obtain ⟨rfl, -⟩ | ⟨-, -, rfl⟩ | ⟨-, b, v, rfl, rfl⟩ | ⟨-, rfl⟩ | ⟨-, b, v, hw, rfl⟩ := StepLaws.exec_next h
  · cases hi
  · exact clearEmits_restsSince hs
  · exact clearEmits_restsSince
      (setRem_restsSince v (leavesCounterToTicks_write_ne hi (hostWrite_moveOn b v)) hs)
  · exact htick
  · exact setRem_restsSince v (leavesCounterToTicks_write_ne hi hw) htick

/-- No operation touches the words to come. -/
theorem exec_inputs {i : Instr} {s t : State} (h : exec i s = .next t) : t.inputs = s.inputs := by
  obtain ⟨htick, -⟩ := TickLaws.tick_frame Config.phaseTable s
  obtain ⟨-, rfl⟩ | ⟨-, -, rfl⟩ | ⟨-, b, v, -, rfl⟩ | ⟨-, rfl⟩ | ⟨-, b, v, -, rfl⟩ := StepLaws.exec_next h <;>
    simp [htick]

/-- Over any words that neither reset nor write an idle axis, it stays at rest. -/
theorem run_restsSince {a : Axis} {ws rest : List InputWord} {s : State} (hin : s.inputs = ws ++ rest)
    (hr : s.rem a = 0) (hws : noOtherWrite a ws = true) :
    ∃ u : State, Host.Core.run core ws.length s = .next u ∧ RestsSince a s u := by
  induction ws generalizing s with
  | nil => exact ⟨s, rfl, hr, fun _ _ => ⟨rfl, rfl⟩⟩
  | cons w ws ih =>
    obtain ⟨hw, htail⟩ : leavesCounterToTicks a (decode w) = true ∧ noOtherWrite a ws = true := by
      simpa [noOtherWrite] using hws
    obtain ⟨t, hexec⟩ := Encoding.exec_completes (decode w) { s with inputs := ws ++ rest }
    have hfirst : RestsSince a s t := by
      simpa [RestsSince] using exec_restsSince hexec (by simpa using hr) hw
    obtain ⟨u, hrun, hlater⟩ := ih (exec_inputs hexec) hfirst.1 htail
    exact ⟨u, (StepLaws.run_succ _ ((step_of_inputs_cons hin).trans hexec)).trans hrun, hfirst.trans hlater⟩

/-- Writing the 0 an idle axis's counter already holds changes nothing. -/
theorem setRem_zero_of_idle {a : Axis} {s : State} (h : s.rem a = 0) : s.setRem a 0 = s := by
  cases a <;> rw [← h] <;> rfl

/-- Settles O22: the zero move leaves the axis idle where it stands, and an idle axis stays at rest until it is written or reset. -/
theorem zeroMoveCancels : Obligations.ZeroMoveCancels := by
  intro a s
  have hmoved : RestsSince a s (s.setRem a 0).clearEmits := by
    simp [RestsSince, rem_setRem]
  refine ⟨_, StepLaws.exec_moveOn a 0 s, hmoved.1, fun hidle => ?_, fun ws rest hin hws => ?_⟩
  · rw [setRem_zero_of_idle hidle]
  · obtain ⟨u, hrun, hrests⟩ := run_restsSince (by simpa using hin) hmoved.1 hws
    obtain ⟨hrem, hmotors⟩ := hmoved.trans hrests
    exact ⟨u, hrun, hrem, hmotors⟩

end Sys2Proof.Proofs.MoveRequest

/-!
The tick (spec/42_tick.md rules R91 to R93, R96, R97): the index step, the sign bit, what a tick leaves on an idle axis, and the mirrored pair.
-/

namespace Sys2Proof.Proofs.Tick

open Sys2Proof Sys2Proof.Machine Sys2Proof.Machine.StateLaws

/-! The arithmetic of a step. -/

/-- The index step up is the 3-bit addition of 1, and the step down the 3-bit subtraction (42_tick R96). -/
theorem nextIndex_one (i : PhaseIndex) : nextIndex i 1 = i + 1 := by
  have hnext := ArithLaws.nextIndex_toNat i 1
  apply BitVec.eq_of_toNat_eq
  have hone : (1 : PhaseIndex).toNat = 1 := rfl
  rw [BitVec.toNat_add, hone]
  omega

theorem nextIndex_neg_one (i : PhaseIndex) : nextIndex i (-1) = i - 1 := by
  have hnext := ArithLaws.nextIndex_toNat i (-1)
  apply BitVec.eq_of_toNat_eq
  have hone : (1 : PhaseIndex).toNat = 1 := rfl
  rw [BitVec.toNat_sub, hone]
  omega

/-- Settles O30: the two senses are one 3-bit addition and one subtraction; 8 is 0 modulo 8. -/
theorem indexStepWrapsModuloEight : Obligations.IndexStepWrapsModuloEight := by
  intro i d hd
  have hlt : i.toNat < 8 := i.isLt
  have hnext := ArithLaws.nextIndex_toNat i d
  refine ⟨by omega, ?_, ?_, ArithLaws.mod8_congr (by omega)⟩
  · obtain rfl | rfl := hd
    · exact nextIndex_one i
    · exact nextIndex_neg_one i
  · obtain rfl | rfl := hd
    · rw [if_pos rfl]
      split <;> omega
    · rw [if_neg (by decide)]
      split <;> omega

/-- The sign of a counter that is not zero is its bit 31, 1 for negative (42_tick R93, two's complement by log 7). -/
theorem sgn_eq_signBit {r : Counter} (h : r ≠ 0) : sgn r.toInt = if r[31] then -1 else 1 := by
  have hbit : r[31] = decide (r.toInt < 0) := by
    rw [← BitVec.msb_eq_toInt, BitVec.msb_eq_getLsbD_last]
    rfl
  have hne := ArithLaws.counter_toInt_ne_zero h
  rw [hbit, sgn]
  by_cases hneg : r.toInt < 0
  · rw [if_neg (by omega), if_pos hneg, decide_eq_true hneg, if_pos rfl]
  · rw [if_pos (by omega), decide_eq_false hneg, if_neg Bool.false_ne_true]

/-- Settles O28: a non-zero counter's direction is its sign; the tick after a move reads the operand, whatever was there before. -/
theorem directionIsTheSignOfTheCounter : Obligations.DirectionIsTheSignOfTheCounter := by
  refine ⟨fun r hr => ⟨rfl, (ArithLaws.dir_eq_sgn hr).trans (sgn_eq_signBit hr)⟩, ?_⟩
  intro a steps s t hsteps hmove
  rw [StepLaws.exec_moveOn] at hmove
  cases hmove
  refine ⟨_, StepLaws.exec_tick _, fun m hm => ?_⟩
  subst hm
  rw [MoveRequest.tick_after_move_idx, sgn_eq_signBit hsteps]

/-! One tick, motor by motor. -/

/-- A whole tick leaves an idle axis's motor as it was, and takes one micro-step of any other (42_tick R91, R92, R94). -/
theorem motorTicked_tick (s : State) (m : Motor) : MotorTicked s (tick Config.phaseTable s) m := by
  rw [MotorTicked]
  obtain ⟨hidle, hkept⟩ | ⟨hactive, hidx, hcoil, hemit⟩ := TickLaws.tick_motor Config.phaseTable s m
  · rwa [if_pos hidle]
  · rw [if_neg hactive]
    exact ⟨by rw [hidx, ArithLaws.nextIndex_toNat], by rw [hcoil, hidx], hemit⟩

/-- The strobe of an idle axis's motor is cleared by a tick. -/
theorem tick_emit_of_idle (pt : PhaseTable) {s : State} {m : Motor} (h : s.rem m.axis = 0) :
    (tick pt s).emit m = false := by
  obtain ⟨-, -, -, hemit⟩ | ⟨hactive, -⟩ := TickLaws.tick_motor pt s m
  · exact hemit
  · exact absurd h hactive

/-- Settles O23: a whole tick's micro-step of the motor and step of the counter; the vertical half leaves the horizontal registers as the horizontal
half has them. -/
theorem horizontalTickPart : Obligations.HorizontalTickPart := by
  intro s
  have hmotor := motorTicked_tick s .horizontal
  have hevents := StepLaws.patternsTo_pinEmissions .horizontal (tick Config.phaseTable s)
  refine ⟨_, StepLaws.exec_tick s, fun hidle => ?_, fun hactive => ?_, _, rfl, ?_⟩
  · rw [MotorTicked, if_pos (show s.rem Motor.horizontal.axis = 0 from hidle)] at hmotor
    obtain ⟨hidx, hcoil, hemit⟩ := hmotor
    rw [hemit] at hevents
    have hrem := TickLaws.tick_counter Config.phaseTable s .h
    rw [rem_h, rem_h, if_pos hidle] at hrem
    exact ⟨hrem, hidx, hcoil, hemit, hevents⟩
  · rw [MotorTicked, if_neg (show s.rem Motor.horizontal.axis ≠ 0 from hactive)] at hmotor
    obtain ⟨hidx, hcoil, hemit⟩ := hmotor
    rw [hemit, hcoil] at hevents
    have hdir : dir s.remH = sgn s.remH.toInt := ArithLaws.dir_eq_sgn hactive
    refine ⟨dir s.remH, rfl, ?_, hcoil, hemit, hevents, ?_⟩
    · simpa [hdir, Motor.axis, motorSense] using hidx
    · rw [hdir]
      exact TickLaws.tick_counter_toInt Config.phaseTable s .h
  · obtain ⟨hrem, hidx, hcoil, hemit, -⟩ := TickLaws.tickV_frame Config.phaseTable (tickH Config.phaseTable s)
    obtain ⟨kremV, kidx1, kidx2, kcoil1, kcoil2, kemit1, kemit2, -⟩ := TickLaws.tickH_frame Config.phaseTable s
    refine ⟨hrem.symm, hidx.symm, hcoil.symm, hemit.symm, kremV, fun m hm => ?_⟩
    cases m with
    | horizontal => cases hm
    | verticalLeft => exact ⟨kidx1, kcoil1, kemit1⟩
    | verticalRight => exact ⟨kidx2, kcoil2, kemit2⟩

/-! Ticks on idle axes. -/

/-- With every axis idle, a tick only clears the strobes. -/
theorem tick_eq_clearEmits (pt : PhaseTable) {s : State} (h : ∀ a : Axis, s.rem a = 0) : tick pt s = s.clearEmits := by
  obtain ⟨hinputs, hundriven, hresets⟩ := TickLaws.tick_frame pt s
  refine state_eq_of_fields (fun a => ?_) (fun m => ?_) hinputs hundriven hresets
  · rw [TickLaws.tick_counter, if_pos (h a), rem_clearEmits, h a]
  · obtain ⟨-, hmotors⟩ := MoveRequest.tick_restsSince pt (h m.axis)
    obtain ⟨hidx, hcoil⟩ := hmotors m rfl
    exact ⟨by rw [hidx, idx_clearEmits], by rw [hcoil, coil_clearEmits],
      by rw [tick_emit_of_idle pt (h m.axis), emit_clearEmits]⟩

/-- An edge with TICK's canonical word on the pins ticks. -/
theorem step_of_tick_word {s : State} {rest : List InputWord} (h : s.inputs = encode .tick :: rest) :
    step s = .next (tick Config.phaseTable { s with inputs := rest }) := by
  rw [MoveRequest.step_of_inputs_cons h, Encoding.decode_encode, StepLaws.exec_tick]

/-- Over `n` ticks an idle axis stays at rest and shows no event. Its strobes are 0 at the end if a tick came, or if they were before: the second
case carries the induction. -/
theorem run_ticks_of_idle {a : Axis} {n : Nat} {rest : List InputWord} {s : State} (hr : s.rem a = 0)
    (hin : s.inputs = List.replicate n (encode .tick) ++ rest) :
    ∃ t : State, Host.Core.run core n s = .next t ∧ MoveRequest.RestsSince a s t ∧ ∀ m : Motor, m.axis = a →
      (0 < n ∨ s.emit m = false → t.emit m = false) ∧ patternsTo m (runEmissions n s) = [] := by
  induction n generalizing s with
  | zero => exact ⟨s, rfl, ⟨hr, fun _ _ => ⟨rfl, rfl⟩⟩, fun m _ => ⟨fun h => h.resolve_left (by decide), rfl⟩⟩
  | succ n ih =>
    rw [List.replicate_succ, List.cons_append] at hin
    have hstep := step_of_tick_word hin
    have hidle : State.rem { s with inputs := List.replicate n (encode .tick) ++ rest } a = 0 := hr
    have hfirst := MoveRequest.tick_restsSince Config.phaseTable hidle
    obtain ⟨hframe, -⟩ := TickLaws.tick_frame Config.phaseTable
      { s with inputs := List.replicate n (encode .tick) ++ rest }
    obtain ⟨u, hrun, hlater, hshown⟩ := ih hfirst.1 hframe
    refine ⟨u, (StepLaws.run_succ n hstep).trans hrun, ?_, fun m hm => ?_⟩
    · exact MoveRequest.RestsSince.trans (by simpa [MoveRequest.RestsSince] using hfirst) hlater
    · subst hm
      obtain ⟨hstrobe, hevents⟩ := hshown m rfl
      have hemit := tick_emit_of_idle Config.phaseTable hidle
      refine ⟨fun _ => hstrobe (.inr hemit), ?_⟩
      rw [StepLaws.runEmissions_succ n hstep, StepLaws.patternsTo_append, hevents,
        StepLaws.patternsTo_pinEmissions, hemit]
      rfl

/-- Settles O27: by induction on the number of ticks for one idle axis; with both idle the tick is NOP's clearing of the strobes. -/
theorem idleAxisIsSkipped : Obligations.IdleAxisIsSkipped := by
  refine ⟨fun a s n rest hr hin => ?_, fun s hH hV => ?_⟩
  · obtain ⟨t, hrun, ⟨hrem, hrests⟩, hshown⟩ := run_ticks_of_idle hr hin
    refine ⟨t, hrun, hrem, fun m hm => ?_⟩
    obtain ⟨hidx, hcoil⟩ := hrests m hm
    obtain ⟨hstrobe, hevents⟩ := hshown m hm
    exact ⟨hidx, hcoil, fun hn => hstrobe (.inl hn), hevents⟩
  · have htick : exec .tick s = .next s.clearEmits := by
      rw [StepLaws.exec_tick, tick_eq_clearEmits Config.phaseTable fun a => by cases a <;> assumption]
    exact ⟨htick.trans (StepLaws.exec_nop s).symm, htick⟩

/-! The mirrored pair. -/

/-- Each index after any operation but RESET: moved by the sign of its axis's old counter in the motor's sense if the operation has a
tick, and otherwise not. -/
theorem exec_idx_toNat {i : Instr} {s t : State} (h : exec i s = .next t) (hi : isReset i = false) (m : Motor) :
    ((t.idx m).toNat : Int) =
      ((s.idx m).toNat + motorSense m * (if hasTick i then sgn (s.rem m.axis).toInt else 0)) % 8 := by
  have hlt : (s.idx m).toNat < 8 := (s.idx m).isLt
  have htick := MoveRequest.tick_idx_toNat Config.phaseTable s m
  obtain ⟨rfl, -⟩ | ⟨hno, -, rfl⟩ | ⟨hno, b, v, -, rfl⟩ | ⟨rfl, rfl⟩ | ⟨hyes, b, v, -, rfl⟩ := StepLaws.exec_next h
  · cases hi
  · rw [idx_clearEmits, hno, if_neg Bool.false_ne_true]
    omega
  · rw [idx_clearEmits, idx_setRem, hno, if_neg Bool.false_ne_true]
    omega
  · exact htick
  · rw [idx_setRem, hyes]
    exact htick

/-- Both vertical indices after any operation but RESET, moved by opposite amounts. -/
theorem exec_vertical_idx_toNat {i : Instr} {s t : State} (h : exec i s = .next t) (hi : isReset i = false) :
    (t.idx1.toNat : Int) = ((s.idx1.toNat : Int) + if hasTick i then sgn s.remV.toInt else 0) % 8 ∧
    (t.idx2.toNat : Int) = ((s.idx2.toNat : Int) - if hasTick i then sgn s.remV.toInt else 0) % 8 := by
  have hleft := exec_idx_toNat h hi .verticalLeft
  have hright := exec_idx_toNat h hi .verticalRight
  rw [motorSense, Int.one_mul] at hleft
  rw [motorSense, Int.neg_one_mul, ← Int.sub_eq_add_neg] at hright
  exact ⟨hleft, hright⟩

theorem isReset_of_hasTick {i : Instr} (h : hasTick i = true) : isReset i = false := by
  cases i with
  | reset => cases h
  | _ => rfl

/-- Settles O31: opposite amounts modulo 8 are zero together, and cancel in the sum. -/
theorem verticalPairIsMirrored : Obligations.VerticalPairIsMirrored := by
  refine ⟨fun i s t h hi _ => ?_, fun i s t h hi => ?_⟩
  · simpa [hi] using exec_vertical_idx_toNat h (isReset_of_hasTick hi)
  · obtain ⟨hleft, hright⟩ := exec_vertical_idx_toNat h hi
    have hlt1 : s.idx1.toNat < 8 := s.idx1.isLt
    have hlt2 : s.idx2.toNat < 8 := s.idx2.isLt
    rw [← BitVec.toNat_inj, ← BitVec.toNat_inj]
    generalize (if hasTick i then sgn s.remV.toInt else 0) = d at hleft hright
    omega

end Sys2Proof.Proofs.Tick

/-!
The block takes no exception (spec/60_exceptions.md rule R130): the next state is the one outcome of every operation, of every edge and of every run.
-/

namespace Sys2Proof.Proofs.Exceptions

open Sys2Proof Sys2Proof.Machine

/-- An edge is one operation, whatever word is on the pins (30_encoding R51, R54). -/
theorem step_completes (s : State) : ∃ t : State, step s = .next t :=
  Encoding.exec_completes (decode s.sampledWord) s.afterSample

/-- The first edge of a run leads to a state from which the rest of the run is safe. -/
theorem safeRun (s : State) : SafeRun s := by
  intro n
  induction n generalizing s with
  | zero => exact ⟨s, rfl⟩
  | succ n ih =>
    obtain ⟨t, hstep⟩ := step_completes s
    obtain ⟨u, hrun⟩ := ih t
    exact ⟨u, (StepLaws.run_succ n hstep).trans hrun⟩

/-- Settles O12: every operation answers a next state, so every edge does, and so does every run, by induction on the number of edges. -/
theorem everyRunIsSafe : Obligations.EveryRunIsSafe :=
  ⟨Encoding.exec_completes, step_completes, safeRun⟩

end Sys2Proof.Proofs.Exceptions

/-!
Every operation but RESET is one edge in two parts (spec/43_cycle_ops.md rules R110 to R112): the motors are ticked or their strobes cleared, then the
host's write lands. Each register after an operation, said once by axis and by motor.
-/

namespace Sys2Proof.Proofs.Operations

open Sys2Proof Sys2Proof.Machine Sys2Proof.Machine.StateLaws

/-- The tick of an operation that has one; the strobes cleared by any other. -/
def tickPart (i : Instr) (s : State) : State := if hasTick i then tick Config.phaseTable s else s.clearEmits

/-- The host's write of an operation that carries one. -/
def writePart (i : Instr) (s : State) : State :=
  match hostWrite i with
  | none => s
  | some (a, v) => s.setRem a v

theorem exec_eq_parts {i : Instr} (hi : isReset i = false) (s : State) :
    exec i s = .next (writePart i (tickPart i s)) := by
  cases i with
  | reset => cases hi
  | nop => rfl
  | tick => rfl
  | movh v => rfl
  | movv v => rfl
  | tmovh v => rfl
  | tmovv v => rfl

theorem eq_reset_of_isReset {i : Instr} (hi : isReset i = true) : i = .reset := by
  cases i with
  | reset => rfl
  | _ => cases hi

/-- What an operation answers: the reset registers, or its two parts. -/
theorem exec_inv {i : Instr} {s t : State} (h : exec i s = .next t) :
    (i = .reset ∧ t = s.resetRegisters) ∨ (isReset i = false ∧ t = writePart i (tickPart i s)) := by
  cases hi : isReset i with
  | true =>
    obtain rfl := eq_reset_of_isReset hi
    cases h
    exact .inl ⟨rfl, rfl⟩
  | false =>
    rw [exec_eq_parts hi] at h
    cases h
    exact .inr ⟨rfl, rfl⟩

/-! The two parts, register by register. -/

@[simp] theorem rem_writePart (i : Instr) (s : State) (a : Axis) :
    (writePart i s).rem a = (writeTo a i).getD (s.rem a) := by
  unfold writePart writeTo
  cases hostWrite i with
  | none => rfl
  | some w =>
    obtain ⟨b, v⟩ := w
    by_cases hab : b = a
    · simp [rem_setRem, hab]
    · simp [rem_setRem, hab, Ne.symm hab]

@[simp] theorem idx_writePart (i : Instr) (s : State) (m : Motor) : (writePart i s).idx m = s.idx m := by
  unfold writePart
  split <;> simp
@[simp] theorem coil_writePart (i : Instr) (s : State) (m : Motor) : (writePart i s).coil m = s.coil m := by
  unfold writePart
  split <;> simp
@[simp] theorem emit_writePart (i : Instr) (s : State) (m : Motor) : (writePart i s).emit m = s.emit m := by
  unfold writePart
  split <;> simp
theorem writePart_of_hostWrite {i : Instr} {a : Axis} {v : Counter} (h : hostWrite i = some (a, v)) (s : State) :
    writePart i s = s.setRem a v := by
  simp [writePart, h]
theorem writePart_frame (i : Instr) (s : State) :
    (writePart i s).inputs = s.inputs ∧ (writePart i s).undriven = s.undriven ∧
      (writePart i s).resets = s.resets := by
  unfold writePart
  split <;> simp

/-- The index a motor comes to at an active tick. -/
def nextOf (s : State) (m : Motor) : PhaseIndex :=
  nextIndex (s.idx m) (motorSense m * sgn (s.rem m.axis).toInt)

/-- An operation advances a motor: it has a tick, and the motor's axis is not idle (44_pin_emission R121). -/
def Advances (i : Instr) (s : State) (m : Motor) : Prop := hasTick i = true ∧ s.rem m.axis ≠ 0

theorem tickPart_motor (i : Instr) (s : State) (m : Motor) :
    (Advances i s m ∧ (tickPart i s).idx m = nextOf s m ∧ (tickPart i s).coil m = Config.phaseTable (nextOf s m) ∧
      (tickPart i s).emit m = true) ∨
    (¬ Advances i s m ∧ (tickPart i s).idx m = s.idx m ∧ (tickPart i s).coil m = s.coil m ∧
      (tickPart i s).emit m = false) := by
  cases hi : hasTick i with
  | false => exact .inr ⟨fun h => by simp [h.1] at hi, by simp [tickPart, hi]⟩
  | true =>
    rw [tickPart, if_pos hi]
    obtain ⟨hidle, hkept⟩ | ⟨hactive, hmoved⟩ := TickLaws.tick_motor Config.phaseTable s m
    · exact .inr ⟨fun h => h.2 hidle, hkept⟩
    · exact .inl ⟨⟨hi, hactive⟩, hmoved⟩

/-- Each counter after the first part, in plain integers (42_tick R95). -/
theorem tickPart_counter_toInt (i : Instr) (s : State) (a : Axis) :
    ((tickPart i s).rem a).toInt = (s.rem a).toInt - if hasTick i then sgn (s.rem a).toInt else 0 := by
  cases hi : hasTick i with
  | false => simp [tickPart, hi]
  | true => simpa [tickPart, hi] using TickLaws.tick_counter_toInt Config.phaseTable s a

theorem tickPart_frame (i : Instr) (s : State) :
    (tickPart i s).inputs = s.inputs ∧ (tickPart i s).undriven = s.undriven ∧ (tickPart i s).resets = s.resets := by
  unfold tickPart
  split
  · exact TickLaws.tick_frame _ s
  · exact ⟨rfl, rfl, rfl⟩

/-! An operation, register by register. -/

theorem not_advances_reset (s : State) (m : Motor) : ¬ Advances .reset s m := fun h => by cases h.1

/-- A motor after any operation but RESET: advanced, with its lines and strobe, or as it was with its strobe cleared (44_pin_emission R121, R123). -/
theorem exec_motor {i : Instr} {s t : State} (h : exec i s = .next t) (hi : isReset i = false) (m : Motor) :
    (Advances i s m ∧ t.idx m = nextOf s m ∧ t.coil m = Config.phaseTable (nextOf s m) ∧ t.emit m = true) ∨
    (¬ Advances i s m ∧ t.idx m = s.idx m ∧ t.coil m = s.coil m ∧ t.emit m = false) := by
  rw [exec_eq_parts hi] at h
  cases h
  simpa using tickPart_motor i s m

/-- The strobe after any operation, RESET too. -/
theorem exec_emit_iff {i : Instr} {s t : State} (h : exec i s = .next t) (m : Motor) :
    t.emit m = true ↔ Advances i s m := by
  obtain ⟨rfl, rfl⟩ | ⟨hi, -⟩ := exec_inv h
  · simp [not_advances_reset]
  · obtain ⟨hadv, -, -, hemit⟩ | ⟨hadv, -, -, hemit⟩ := exec_motor h hi m <;> simp [hadv, hemit]

/-- What is driven is the table's pattern of the new index (42_tick R92, R94). -/
theorem exec_strobed {i : Instr} {s t : State} (h : exec i s = .next t) {m : Motor} (he : t.emit m = true) :
    t.idx m = nextOf s m ∧ t.coil m = Config.phaseTable (nextOf s m) := by
  obtain ⟨rfl, rfl⟩ | ⟨hi, -⟩ := exec_inv h
  · simp at he
  · obtain ⟨-, hidx, hcoil, -⟩ | ⟨-, -, -, hemit⟩ := exec_motor h hi m
    · exact ⟨hidx, hcoil⟩
    · simp [hemit] at he

/-- A motor that is not strobed is as it was, unless this is a RESET (44_pin_emission R123). -/
theorem exec_unstrobed {i : Instr} {s t : State} (h : exec i s = .next t) (hi : isReset i = false) {m : Motor}
    (he : t.emit m = false) : t.idx m = s.idx m ∧ t.coil m = s.coil m := by
  obtain ⟨-, -, -, hemit⟩ | ⟨-, hidx, hcoil, -⟩ := exec_motor h hi m
  · simp [hemit] at he
  · exact ⟨hidx, hcoil⟩

/-- A counter after any operation but RESET: the host's operand, or what the tick leaves. -/
theorem exec_rem {i : Instr} {s t : State} (h : exec i s = .next t) (hi : isReset i = false) (a : Axis) :
    t.rem a = (writeTo a i).getD ((tickPart i s).rem a) := by
  rw [exec_eq_parts hi] at h
  cases h
  simp

/-- A counter the host does not write is left to the tick, in plain integers (10_state R19). -/
theorem exec_rem_toInt {i : Instr} {s t : State} {a : Axis} (h : exec i s = .next t) (hi : isReset i = false)
    (hw : writeTo a i = none) :
    (t.rem a).toInt = (s.rem a).toInt - if hasTick i then sgn (s.rem a).toInt else 0 := by
  rw [exec_rem h hi, hw, Option.getD_none, tickPart_counter_toInt]

/-- The model's own fields (logs 2, 3, 4). -/
theorem exec_frame {i : Instr} {s t : State} (h : exec i s = .next t) :
    t.inputs = s.inputs ∧ t.undriven = s.undriven ∧ t.resets = if isReset i then s.resets + 1 else s.resets := by
  obtain ⟨rfl, rfl⟩ | ⟨hi, rfl⟩ := exec_inv h
  · exact ⟨rfl, rfl, rfl⟩
  · obtain ⟨hin, hun, hre⟩ := writePart_frame i (tickPart i s)
    obtain ⟨kin, kun, kre⟩ := tickPart_frame i s
    rw [hi, if_neg Bool.false_ne_true]
    exact ⟨hin.trans kin, hun.trans kun, hre.trans kre⟩

theorem writeTo_of_hostWrite {i : Instr} {a : Axis} {v : Counter} (h : hostWrite i = some (a, v)) :
    writeTo a i = some v := by
  simp [writeTo, h]

theorem isReset_of_writeTo {i : Instr} {a : Axis} {v : Counter} (h : writeTo a i = some v) : isReset i = false := by
  cases i with
  | reset => cases h
  | _ => rfl

/-- "No other write to that axis" (42_tick R98), as the two conditions of the lemmas above. -/
theorem leavesCounterToTicks_iff (a : Axis) (i : Instr) :
    leavesCounterToTicks a i = true ↔ isReset i = false ∧ writeTo a i = none := by
  unfold leavesCounterToTicks writeTo
  cases hostWrite i <;> simp

/-- Settles O14: RESET counts itself; no other operation touches the model's own fields. -/
theorem operationsLeaveTheInputsAlone : Obligations.OperationsLeaveTheInputsAlone := fun _ _ _ h => exec_frame h

/-! The motors and the strobes. -/

/-- Settles O40: a motor is strobed exactly when it is advanced, with its lines at the new index's pattern. -/
theorem emissionExactlyWhenAdvanced : Obligations.EmissionExactlyWhenAdvanced := by
  intro i s t m h
  refine ⟨exec_emit_iff h m, fun he => ?_⟩
  obtain ⟨hidx, hcoil⟩ := exec_strobed h he
  rw [hcoil, hidx]

/-- The two vertical motors share their counter, so an operation advances both or neither (44_pin_emission R124). -/
theorem exec_vertical_strobes {i : Instr} {s t : State} (h : exec i s = .next t) : t.emit1 = t.emit2 :=
  Bool.eq_iff_iff.mpr ((exec_emit_iff h .verticalLeft).trans (exec_emit_iff h .verticalRight).symm)

/-- Settles O43: an edge is one operation. -/
theorem verticalStrobesAgreeAfterAnyStep : Obligations.VerticalStrobesAgreeAfterAnyStep :=
  fun _ _ h => exec_vertical_strobes h

/-- One micro-step is the 3-bit addition or subtraction of 1. -/
theorem nextOf_eq {s : State} {m : Motor} (h : s.rem m.axis ≠ 0) :
    nextOf s m = if motorSense m * sgn (s.rem m.axis).toInt = 1 then s.idx m + 1 else s.idx m - 1 := by
  have hunit : motorSense m * sgn (s.rem m.axis).toInt = 1 ∨ motorSense m * sgn (s.rem m.axis).toInt = -1 := by
    rw [← ArithLaws.dir_eq_sgn h]
    obtain hd | hd := ArithLaws.dir_eq_one_or_neg_one (s.rem m.axis) <;> cases m <;> simp [motorSense, hd]
  rw [nextOf]
  obtain hd | hd := hunit <;> rw [hd]
  · exact Tick.nextIndex_one _
  · exact Tick.nextIndex_neg_one _

/-- Settles O44: an index that changed is not a reset's, so its motor was advanced. -/
theorem indexMovesOnlyOnAnActiveTick : Obligations.IndexMovesOnlyOnAnActiveTick := by
  intro i s t m h hne
  cases hi : isReset i with
  | true => exact .inl rfl
  | false =>
    obtain ⟨⟨htick, hactive⟩, hidx, -⟩ | ⟨-, hidx, -⟩ := exec_motor h hi m
    · refine .inr ⟨htick, hactive, ?_⟩
      rw [hidx, nextOf_eq hactive]
      split
      · exact .inl rfl
      · exact .inr rfl
    · exact absurd hidx hne

/-! The counters. -/

/-- Settles O45: RESET's zero, the operand, one toward zero, or nothing. -/
theorem counterAccessRights : Obligations.CounterAccessRights := by
  intro i s t a h
  refine ⟨fun hi => ?_, fun v hw => ?_, fun hi hw htick => ?_, fun hi hw hno => ?_⟩
  · obtain rfl := eq_reset_of_isReset hi
    cases h
    exact rem_resetRegisters s a
  · rw [exec_rem h (isReset_of_writeTo hw), hw, Option.getD_some]
  · simpa [CounterTicked, htick] using exec_rem_toInt h hi hw
  · simpa [hno, BitVec.toInt_inj] using exec_rem_toInt h hi hw

/-- A motor after two operations that tick alike, from two states alike in its axis's counter and its index. -/
theorem exec_motor_congr {i j : Instr} {s t u v : State} {m : Motor} (hu : exec i s = .next u) (hv : exec j t = .next v)
    (hi : isReset i = false) (hj : isReset j = false) (htick : hasTick i = hasTick j)
    (hrem : s.rem m.axis = t.rem m.axis) (hidx : s.idx m = t.idx m) :
    u.idx m = v.idx m ∧ u.emit m = v.emit m ∧ (u.emit m = true ∨ s.coil m = t.coil m → u.coil m = v.coil m) := by
  have hadv : Advances i s m ↔ Advances j t m := by rw [Advances, Advances, htick, hrem]
  have hnext : nextOf s m = nextOf t m := by rw [nextOf, nextOf, hidx, hrem]
  obtain ⟨h1, e1, c1, b1⟩ | ⟨h1, e1, c1, b1⟩ := exec_motor hu hi m <;>
    obtain ⟨h2, e2, c2, b2⟩ | ⟨h2, e2, c2, b2⟩ := exec_motor hv hj m
  · exact ⟨by rw [e1, e2, hnext], by rw [b1, b2], fun _ => by rw [c1, c2, hnext]⟩
  · exact absurd (hadv.mp h1) h2
  · exact absurd (hadv.mpr h2) h1
  · exact ⟨by rw [e1, e2, hidx], by rw [b1, b2], fun hc => by rw [c1, c2]; exact hc.resolve_left (by simp [b1])⟩

/-- A counter after two operations that tick alike and write it alike, from two states alike in it. -/
theorem exec_rem_congr {i j : Instr} {s t u v : State} {a : Axis} (hu : exec i s = .next u) (hv : exec j t = .next v)
    (hi : isReset i = false) (hj : isReset j = false) (htick : hasTick i = hasTick j)
    (hwrite : writeTo a i = writeTo a j) (hrem : s.rem a = t.rem a) : u.rem a = v.rem a := by
  have hpart : (tickPart i s).rem a = (tickPart j t).rem a := by
    rw [← BitVec.toInt_inj, tickPart_counter_toInt, tickPart_counter_toInt, htick, hrem]
  rw [exec_rem hu hi, exec_rem hv hj, hwrite, hpart]

/-- Settles O48: each register of an axis depends on that axis's counter, index and lines alone. -/
theorem axesAreIndependent : Obligations.AxesAreIndependent := by
  intro a i j s t u v hi hj htick hwrite hsame hu hv
  obtain ⟨hrem, hmotors⟩ := hsame
  refine ⟨exec_rem_congr hu hv hi hj htick hwrite hrem, fun m hm => ?_⟩
  obtain ⟨hidx, hcoil, -⟩ := hmotors m hm
  subst hm
  obtain ⟨kidx, kemit, kcoil⟩ := exec_motor_congr hu hv hi hj htick hrem hidx
  exact ⟨kidx, kcoil (.inr hcoil), kemit⟩

/-- What the pins show depends on the strobes and on the lines of the strobed motors alone. -/
theorem pinEmissions_congr {u v : State} (h : ∀ m : Motor, u.emit m = v.emit m ∧ (u.emit m = true → u.coil m = v.coil m)) :
    pinEmissions u = pinEmissions v := by
  refine List.flatMap_congr fun m _ => ?_
  obtain ⟨hemit, hcoil⟩ := h m
  rw [pinEmissionOfMotor, pinEmissionOfMotor, ← hemit]
  split
  · next he => rw [hcoil he]
  · rfl

/-- Settles O49: counters, indices and strobes are never read from the lines or the strobes, and a strobed motor's lines are driven anew. -/
theorem linesAndStrobesAreOutputsOnly : Obligations.LinesAndStrobesAreOutputsOnly := by
  intro i s t u v hrem hidx hu hv
  cases hi : isReset i with
  | true =>
    obtain rfl := eq_reset_of_isReset hi
    cases hu
    cases hv
    exact ⟨fun a => by simp, fun m => by simp, pinEmissions_congr fun m => by simp⟩
  | false =>
    have hmotor := fun m : Motor => exec_motor_congr hu hv hi hi rfl (hrem m.axis) (hidx m)
    refine ⟨fun a => exec_rem_congr hu hv hi hi rfl rfl (hrem a), fun m => ?_, pinEmissions_congr fun m => ?_⟩
    · obtain ⟨kidx, kemit, -⟩ := hmotor m
      exact ⟨kidx, kemit⟩
    · obtain ⟨-, kemit, kcoil⟩ := hmotor m
      exact ⟨kemit, fun he => kcoil (.inl he)⟩

/-! The read port. -/

theorem readPort_addressOf (s : State) (a : Axis) : readPort s (addressOf a) = s.rem a := by
  cases a <;> rfl

/-- Every axis drives a motor. -/
theorem exists_motor_of_axis (a : Axis) : ∃ m : Motor, m.axis = a := by
  cases a with
  | h => exact ⟨.horizontal, rfl⟩
  | v => exact ⟨.verticalLeft, rfl⟩

theorem index_step_ne (i : PhaseIndex) : i + 1 ≠ i ∧ i - 1 ≠ i := by
  revert i
  decide

/-- Settles O50: the port is the counter; an active tick moves every index of its axis and an idle one none. -/
theorem readPortShowsCompletion : Obligations.ReadPortShowsCompletion := by
  refine ⟨fun s => ⟨rfl, rfl⟩, fun i s t a v h hw => ?_, fun s t a h => ?_⟩
  · have hto := writeTo_of_hostWrite hw
    rw [readPort_addressOf, exec_rem h (isReset_of_writeTo hto), hto, Option.getD_some]
  · rw [readPort_addressOf]
    refine ⟨fun hidle m hm => ?_, fun hstill => ?_⟩
    · subst hm
      obtain ⟨⟨-, hactive⟩, -⟩ | ⟨-, hidx, -⟩ := exec_motor h rfl m
      · exact absurd hidle hactive
      · exact hidx
    · obtain ⟨m, rfl⟩ := exists_motor_of_axis a
      by_contra hactive
      obtain ⟨-, hidx, -⟩ | ⟨hnot, -⟩ := exec_motor h rfl m
      · rw [hstill m rfl, nextOf_eq hactive] at hidx
        obtain ⟨hup, hdown⟩ := index_step_ne (s.idx m)
        split at hidx
        · exact hup hidx.symm
        · exact hdown hidx.symm
      · exact hnot ⟨rfl, hactive⟩

end Sys2Proof.Proofs.Operations

/-!
The words (spec/30_encoding.md rules R51 to R57): what the decoder reads of a word, the ignored bits, the opcode map, and the written form.
-/

namespace Sys2Proof.Proofs.Words

open Sys2Proof Sys2Proof.Machine

/-! What a word asks for, bit by bit (30_encoding R51, R53). -/

theorem isReset_decode (w : InputWord) : isReset (decode w) = w[35] := by
  change isReset (decode w) = rstBit w
  unfold decode
  split <;> simp_all [isReset]

theorem hasTick_decode (w : InputWord) : hasTick (decode w) = (w[34] && !w[35]) := by
  change hasTick (decode w) = (tickBit w && !rstBit w)
  unfold decode
  split <;> simp_all [hasTick]

theorem hostWrite_decode (w : InputWord) :
    hostWrite (decode w) = if !w[35] && w[33] then some (if w[32] then .v else .h, wrData w) else none := by
  change hostWrite (decode w) = if !rstBit w && wrEnBit w then some (if wrAxisBit w then .v else .h, wrData w) else none
  unfold decode
  split <;> simp_all [hostWrite]

/-- An operation is what it asks for: a reset, a tick, a write. -/
theorem instr_ext {i j : Instr} (hr : isReset i = isReset j) (ht : hasTick i = hasTick j)
    (hw : hostWrite i = hostWrite j) : i = j := by
  cases i <;> cases j <;> simp_all [isReset, hasTick, hostWrite]

/-- Settles O1: no operation is ill-formed, so the condition is not needed. -/
theorem decodeUndoesEncode : Obligations.DecodeUndoesEncode := fun i _ => Encoding.decode_encode i

/-- Settles O3: what is asked for depends on bit 35 alone if that is 1, and on bits 35 to 33 alone if bit 33 is 0. -/
theorem ignoredBitsDoNotMatter : Obligations.IgnoredBitsDoNotMatter := by
  intro v w
  refine ⟨fun hv hw => ?_, fun hwr hmask => ?_⟩
  · apply instr_ext <;> simp [isReset_decode, hasTick_decode, hostWrite_decode, hv, hw]
  · have hbit : ∀ k : Nat, 33 ≤ k → k < 36 → v.getLsbD k = w.getLsbD k := fun k hlo hhi => by
      have hk := congrArg (fun u : InputWord => u.getLsbD k) hmask
      have hone : (0xE00000000#36).getLsbD k = true := by
        obtain rfl | rfl | rfl : k = 33 ∨ k = 34 ∨ k = 35 := by omega
        all_goals rfl
      simpa [hone] using hk
    have h35 : v[35] = w[35] := hbit 35 (by decide) (by decide)
    have h34 : v[34] = w[34] := hbit 34 (by decide) (by decide)
    have h33 : w[33] = false := (hbit 33 (by decide) (by decide)).symm.trans hwr
    apply instr_ext <;> simp [isReset_decode, hasTick_decode, hostWrite_decode, h35, h34, h33, hwr]

/-- Settles O5: each word's three fields are those of the operation named. -/
theorem writtenOutWordsDecode : Obligations.WrittenOutWordsDecode := by
  unfold Obligations.WrittenOutWordsDecode
  decide

/-! Ignored bits and the opcode map, by the four operation bits of a word. -/

theorem exists_fields (w : InputWord) : ∃ (a : BitVec 4) (d : Counter), w = assembleFields a d :=
  ⟨_, _, DecodeLaws.word_eq_assembleFields w⟩

/-- What the operation bits not ignored are in the cases of 30_encoding R55: a reset, no write, a write. -/
theorem opBits_masked : ∀ a : BitVec 4,
    (a.getLsbD 3 = true → a &&& 0x8#4 = 0x8#4) ∧
    (a.getLsbD 3 = false → a.getLsbD 1 = false → a &&& 0xE#4 = if a.getLsbD 2 then 0x4#4 else 0x0#4) ∧
    (a.getLsbD 3 = false → a.getLsbD 1 = true → a = 0x2#4 ∨ a = 0x3#4 ∨ a = 0x6#4 ∨ a = 0x7#4) := by
  decide

/-- Settles O2: a reset or an operation without operand has the operation bits its row fixes; the four with an operand ignore nothing, so their
word is canonical. -/
theorem encodeUndoesDecodeUpToIgnoredBits : Obligations.EncodeUndoesDecodeUpToIgnoredBits := by
  intro w
  obtain ⟨a, d, rfl⟩ := exists_fields w
  obtain ⟨hreset, hplain, hoperand⟩ := opBits_masked a
  cases h3 : a.getLsbD 3 with
  | true =>
    have hdec : decode (assembleFields a d) = .reset := by
      simp only [decode, DecodeLaws.rstBit_assembleFields, h3]
    have hmask : careMask (assembleFields a d) = assembleFields 0x8#4 0#32 := by
      rw [careMask, DecodeLaws.rstBit_assembleFields, h3]
      rfl
    rw [hdec, hmask, DecodeLaws.assembleFields_and_opBits, hreset h3]
    rfl
  | false =>
    cases h1 : a.getLsbD 1 with
    | false =>
      have hdec : decode (assembleFields a d) = if a.getLsbD 2 then .tick else .nop := by
        simp only [decode, DecodeLaws.rstBit_assembleFields, DecodeLaws.tickBit_assembleFields,
          DecodeLaws.wrEnBit_assembleFields, h3, h1]
        cases a.getLsbD 2 <;> rfl
      have hmask : careMask (assembleFields a d) = assembleFields 0xE#4 0#32 := by
        rw [careMask, DecodeLaws.rstBit_assembleFields, DecodeLaws.wrEnBit_assembleFields, h3, h1]
        rfl
      rw [hdec, hmask, DecodeLaws.assembleFields_and_opBits, hplain h3 h1]
      split <;> rfl
    | true =>
      have hcanonical : ∃ i : Instr, assembleFields a d = encode i := by
        obtain rfl | rfl | rfl | rfl := hoperand h3 h1
        · exact ⟨.movh d, rfl⟩
        · exact ⟨.movv d, rfl⟩
        · exact ⟨.tmovh d, rfl⟩
        · exact ⟨.tmovv d, rfl⟩
      have hmask : careMask (assembleFields a d) = BitVec.allOnes 36 := by
        rw [careMask, DecodeLaws.rstBit_assembleFields, DecodeLaws.wrEnBit_assembleFields, h3, h1]
        rfl
      obtain ⟨i, hi⟩ := hcanonical
      rw [hmask, BitVec.and_allOnes, hi, Encoding.decode_encode]

/-- Every row's mask is of operation bits, so the data bits of a word do not choose its row. -/
theorem rowMatches_data_irrelevant {r : OpcodeRow} (hr : r ∈ opcodeMap) (a : BitVec 4) (d : Counter) :
    rowMatches r (assembleFields a d) = rowMatches r (assembleFields a 0#32) := by
  have hmask : ∀ q ∈ opcodeMap, ∃ m : BitVec 4, q.mask = assembleFields m 0#32 := by decide
  obtain ⟨m, hm⟩ := hmask r hr
  rw [rowMatches, rowMatches, hm, DecodeLaws.assembleFields_and_opBits, DecodeLaws.assembleFields_and_opBits]

/-- Nor do they choose the mnemonic. -/
theorem mnemonic_data_irrelevant (a : BitVec 4) (d : Counter) :
    mnemonicOf (decode (assembleFields a d)) = mnemonicOf (decode (assembleFields a 0#32)) := by
  simp only [decode, DecodeLaws.rstBit_assembleFields, DecodeLaws.tickBit_assembleFields,
    DecodeLaws.wrEnBit_assembleFields, DecodeLaws.wrAxisBit_assembleFields]
  split <;> rfl

/-- Settles O4: the row and the mnemonic are chosen by the four operation bits, and there are sixteen values of these. -/
theorem exactlyOneOpcodeRowMatches : Obligations.ExactlyOneOpcodeRowMatches := by
  have hbits : ∀ a : BitVec 4, ∃ r ∈ opcodeMap, rowMatches r (assembleFields a 0#32) = true ∧
      r.mnemonic = mnemonicOf (decode (assembleFields a 0#32)) ∧
      ∀ q ∈ opcodeMap, rowMatches q (assembleFields a 0#32) = true → q = r := by decide
  intro w
  obtain ⟨a, d, rfl⟩ := exists_fields w
  obtain ⟨r, hr, hmatch, hname, hunique⟩ := hbits a
  refine ⟨r, hr, ?_, ?_, fun q hq hqm => hunique q hq ?_⟩
  · rwa [rowMatches_data_irrelevant hr]
  · rwa [mnemonic_data_irrelevant]
  · rwa [rowMatches_data_irrelevant hq] at hqm

/-! The written form. -/

theorem assemble_cons (line : Line) (lines : List Line) :
    assemble (line :: lines) = (assemble [line]).bind fun us => (assemble lines).map fun vs => us ++ vs := by
  cases hline : lineWellFormed line <;> cases hlines : lines.all lineWellFormed <;>
    simp [assemble, hline, hlines]

/-- A line that may be written assembles to the words of the operations it stands for. -/
theorem assemble_line {line : Line} (h : lineWellFormed line = true) :
    assemble [line] = some ((expandLine line).map encode) := by
  simp [assemble, h]

theorem assemble_line_none {line : Line} (h : lineWellFormed line = false) : assemble [line] = none := by
  simp [assemble, h]

theorem operandInRange_iff (v : Int) : operandInRange v = true ↔ -2147483648 ≤ v ∧ v ≤ 2147483647 := by
  simp [operandInRange]

/-- An operand in the range of `int32` is the signed value of its 32 bits. -/
theorem toInt_ofInt_of_inRange {v : Int} (h : operandInRange v = true) : (BitVec.ofInt 32 v).toInt = v := by
  obtain ⟨hlo, hhi⟩ := (operandInRange_iff v).mp h
  rw [BitVec.toInt_ofInt]
  exact Int.bmod_eq_of_le (by omega) (by omega)

/-- Assembled words decode to the operations their lines stand for. -/
theorem map_decode_assemble {lines : List Line} {ws : List InputWord} (h : assemble lines = some ws) :
    ws.map decode = lines.flatMap expandLine := by
  rw [assemble] at h
  split at h
  · cases h
    simp [Function.comp_def, Encoding.decode_encode]
  · cases h

/-- Settles O7: a text is its lines one after the other, and a line the canonical words of its expansion, if its operand is in range. -/
theorem assembledLinesDecodeToTheirOperations : Obligations.AssembledLinesDecodeToTheirOperations := by
  refine ⟨⟨rfl, assemble_cons⟩, fun v hlo hhi => ?_, fun v hout => ?_, ⟨rfl, rfl, rfl⟩, ⟨rfl, rfl, rfl, rfl⟩,
    fun n => ⟨?_, ?_⟩, fun lines ws h => map_decode_assemble h⟩
  · have hv : operandInRange v = true := (operandInRange_iff v).mpr ⟨hlo, hhi⟩
    exact ⟨BitVec.ofInt 32 v, toInt_ofInt_of_inRange hv,
      assemble_line (line := .movh v) hv, Encoding.decode_encode (.movh _),
      assemble_line (line := .movv v) hv, Encoding.decode_encode (.movv _),
      assemble_line (line := .tmovh v) hv, Encoding.decode_encode (.tmovh _),
      assemble_line (line := .tmovv v) hv, Encoding.decode_encode (.tmovv _)⟩
  · have hv : operandInRange v = false := by
      rw [Bool.eq_false_iff, ne_eq, operandInRange_iff]
      omega
    exact ⟨assemble_line_none (line := .movh v) hv, assemble_line_none (line := .movv v) hv,
      assemble_line_none (line := .tmovh v) hv, assemble_line_none (line := .tmovv v) hv⟩
  · rw [assemble_line rfl, expandLine, List.map_replicate]
    rfl
  · rw [assemble_line rfl, expandLine, List.map_replicate]
    rfl

end Sys2Proof.Proofs.Words

/-!
The two halves of a tick together (spec/42_tick.md sections 1, 3 and 4, spec/43_cycle_ops.md section 2): they commute, what the whole tick does, and a
tick with a write at its edge.
-/

namespace Sys2Proof.Proofs.TickAndWrite

open Sys2Proof Sys2Proof.Machine Sys2Proof.Machine.StateLaws

/-! Each half as one update of the registers of its axis. -/

theorem tickH_of_idle (pt : PhaseTable) {s : State} (h : s.remH = 0) : tickH pt s = { s with emit0 := false } := by
  obtain ⟨-, e⟩ | ⟨hne, -⟩ := TickLaws.tickH_cases pt s
  · exact e
  · exact absurd h hne

theorem tickH_of_active (pt : PhaseTable) {s : State} (h : s.remH ≠ 0) :
    tickH pt s = { s with
      idx0 := nextIndex s.idx0 (sgn s.remH.toInt)
      coil0 := pt (nextIndex s.idx0 (sgn s.remH.toInt))
      emit0 := true
      remH := countDown s.remH } := by
  obtain ⟨he, -⟩ | ⟨-, e⟩ := TickLaws.tickH_cases pt s
  · exact absurd he h
  · exact e

theorem tickV_of_idle (pt : PhaseTable) {s : State} (h : s.remV = 0) :
    tickV pt s = { s with emit1 := false, emit2 := false } := by
  obtain ⟨-, e⟩ | ⟨hne, -⟩ := TickLaws.tickV_cases pt s
  · exact e
  · exact absurd h hne

theorem tickV_of_active (pt : PhaseTable) {s : State} (h : s.remV ≠ 0) :
    tickV pt s = { s with
      idx1 := nextIndex s.idx1 (sgn s.remV.toInt)
      coil1 := pt (nextIndex s.idx1 (sgn s.remV.toInt))
      emit1 := true
      idx2 := nextIndex s.idx2 (-sgn s.remV.toInt)
      coil2 := pt (nextIndex s.idx2 (-sgn s.remV.toInt))
      emit2 := true
      remV := countDown s.remV } := by
  obtain ⟨he, -⟩ | ⟨-, e⟩ := TickLaws.tickV_cases pt s
  · exact absurd he h
  · exact e

/-- Each half reads and writes registers of its own axis only (42_tick R90). -/
theorem tickH_tickV_comm (pt : PhaseTable) (s : State) : tickH pt (tickV pt s) = tickV pt (tickH pt s) := by
  by_cases hH : s.remH = 0 <;> by_cases hV : s.remV = 0 <;>
    simp only [tickH_of_idle, tickH_of_active, tickV_of_idle, tickV_of_active, hH, hV, ne_eq, not_false_eq_true]

/-- The vertical registers after a whole tick are those the vertical half leaves. -/
theorem tickV_sameOnAxis_tick (pt : PhaseTable) (s : State) : SameOnAxis .v (tickV pt s) (tick pt s) := by
  rw [tick, ← tickH_tickV_comm]
  obtain ⟨hrem, hidx1, hidx2, hcoil1, hcoil2, hemit1, hemit2, -⟩ := TickLaws.tickH_frame pt (tickV pt s)
  refine ⟨hrem.symm, fun m hm => ?_⟩
  cases m with
  | horizontal => cases hm
  | verticalLeft => exact ⟨hidx1.symm, hcoil1.symm, hemit1.symm⟩
  | verticalRight => exact ⟨hidx2.symm, hcoil2.symm, hemit2.symm⟩

/-- The vertical half touches nothing horizontal. -/
theorem tickV_sameOnAxis_h (pt : PhaseTable) (s : State) : SameOnAxis .h (tickV pt s) s := by
  obtain ⟨hrem, hidx, hcoil, hemit, -⟩ := TickLaws.tickV_frame pt s
  refine ⟨hrem, fun m hm => ?_⟩
  cases m with
  | horizontal => exact ⟨hidx, hcoil, hemit⟩
  | verticalLeft => cases hm
  | verticalRight => cases hm

/-- Settles O24: a whole tick of both vertical motors in opposite senses, and of their one counter. -/
theorem verticalTickPart : Obligations.VerticalTickPart := by
  intro s
  have hleft := Tick.motorTicked_tick s .verticalLeft
  have hright := Tick.motorTicked_tick s .verticalRight
  refine ⟨_, StepLaws.exec_tick s, fun hidle => ?_, fun hactive => ?_, _, rfl,
    tickV_sameOnAxis_tick _ s, tickV_sameOnAxis_h _ s⟩
  · rw [MotorTicked, if_pos (show s.rem Motor.verticalLeft.axis = 0 from hidle)] at hleft
    rw [MotorTicked, if_pos (show s.rem Motor.verticalRight.axis = 0 from hidle)] at hright
    obtain ⟨hidx1, hcoil1, hemit1⟩ := hleft
    obtain ⟨hidx2, hcoil2, hemit2⟩ := hright
    have hrem := TickLaws.tick_counter Config.phaseTable s .v
    rw [rem_v, rem_v, if_pos hidle] at hrem
    exact ⟨hrem, hidx1, hidx2, hcoil1, hcoil2, hemit1, hemit2⟩
  · rw [MotorTicked, if_neg (show s.rem Motor.verticalLeft.axis ≠ 0 from hactive)] at hleft
    rw [MotorTicked, if_neg (show s.rem Motor.verticalRight.axis ≠ 0 from hactive)] at hright
    obtain ⟨hidx1, hcoil1, hemit1⟩ := hleft
    obtain ⟨hidx2, hcoil2, hemit2⟩ := hright
    have hdir : dir s.remV = sgn s.remV.toInt := ArithLaws.dir_eq_sgn hactive
    refine ⟨dir s.remV, rfl, ?_, ?_, hcoil1, hcoil2, hemit1, hemit2, ?_⟩
    · simpa [hdir, Motor.axis, motorSense] using hidx1
    · simpa [hdir, Motor.axis, motorSense, Int.sub_eq_add_neg] using hidx2
    · rw [hdir]
      exact TickLaws.tick_counter_toInt Config.phaseTable s .v

/-- The number of events the pins show is the number of strobes. -/
theorem length_pinEmissions (s : State) :
    (pinEmissions s).length = s.emit0.toNat + s.emit1.toNat + s.emit2.toNat := by
  cases h0 : s.emit0 <;> cases h1 : s.emit1 <;> cases h2 : s.emit2 <;>
    simp [pinEmissions, pinEmissionOfMotor, Motor.all, h0, h1, h2]

/-- A whole tick strobes the motors of the axes that were not idle. -/
theorem tick_emit_toNat (s : State) (m : Motor) :
    ((tick Config.phaseTable s).emit m).toNat = if s.rem m.axis = 0 then 0 else 1 := by
  obtain ⟨hidle, -, -, hemit⟩ | ⟨hactive, -, -, hemit⟩ := TickLaws.tick_motor Config.phaseTable s m
  · rw [if_pos hidle, hemit]
    rfl
  · rw [if_neg hactive, hemit]
    rfl

/-- TICK's row fixes bits 35 to 33 (30_encoding R53). -/
theorem decode_of_tickRow {w : InputWord} (h : w &&& 0xE00000000#36 = 0x400000000#36) : decode w = .tick := by
  have hwr : (0x400000000#36 : InputWord)[33] = false := rfl
  exact ((Words.ignoredBitsDoNotMatter 0x400000000#36 w).2 hwr h.symm).symm

/-- Settles O25: the halves touch different registers; the strobes of the tick are those of the axes that were not idle. -/
theorem tickPartsCommute : Obligations.TickPartsCommute := by
  refine ⟨fun w hw => decode_of_tickRow hw, Words.hasTick_decode, tickH_tickV_comm, fun s => ?_⟩
  refine ⟨_, StepLaws.exec_tick s, (tickH_tickV_comm _ s).symm, ?_⟩
  have h0 : (tick Config.phaseTable s).emit0.toNat = if s.remH = 0 then 0 else 1 := tick_emit_toNat s .horizontal
  have h1 : (tick Config.phaseTable s).emit1.toNat = if s.remV = 0 then 0 else 1 := tick_emit_toNat s .verticalLeft
  have h2 : (tick Config.phaseTable s).emit2.toNat = if s.remV = 0 then 0 else 1 := tick_emit_toNat s .verticalRight
  rw [length_pinEmissions, h0, h1, h2, Nat.add_assoc]
  split <;> split <;> rfl

/-- Settles O26: the tick's motors, counters and frame together. -/
theorem tickCompletes : Obligations.TickCompletes := fun s =>
  ⟨_, StepLaws.exec_tick s, Tick.motorTicked_tick s, TickLaws.tick_counter_toInt _ s, TickLaws.tick_frame _ s⟩

/-- The counter step on 32 bits: by the sign bit, plus or minus 1 (42_tick R95). -/
theorem countDown_eq {r : Counter} (h : r ≠ 0) : countDown r = if r[31] then r + 1 else r - 1 := by
  rw [countDown, ArithLaws.dir_eq_sgn h, Tick.sgn_eq_signBit h]
  split
  · rw [Int.sub_neg, BitVec.ofInt_add, BitVec.ofInt_toInt]
    rfl
  · rw [Int.sub_eq_add_neg, BitVec.ofInt_add, BitVec.ofInt_toInt, BitVec.sub_eq_add_neg]
    rfl

/-- An integer less its sign is one nearer to 0, 0 itself unmoved, and not past it. -/
theorem sub_sgn_toward_zero (r : Int) :
    (r - sgn r).natAbs = r.natAbs - 1 ∧ (0 ≤ r → 0 ≤ r - sgn r) ∧ (r ≤ 0 → r - sgn r ≤ 0) := by
  unfold sgn
  split
  · omega
  · split <;> omega

/-- Settles O29: the counter less its sign, in plain integers and on 32 bits. -/
theorem counterMovesTowardZero : Obligations.CounterMovesTowardZero := by
  intro s t a h
  rw [StepLaws.exec_tick] at h
  cases h
  obtain ⟨habs, hpos, hneg⟩ := sub_sgn_toward_zero (s.rem a).toInt
  rw [TickLaws.tick_counter_toInt]
  refine ⟨habs, hpos, hneg, fun hactive => ?_⟩
  rw [TickLaws.tick_counter, if_neg hactive, countDown_eq hactive]

/-! A tick and a write at one edge. -/

/-- What a write after the tick leaves of it: the motors, the other counter, and the model's own fields (43_cycle_ops R111, R112). -/
theorem tick_setRem {s t : State} {a b : Axis} {v : Counter} (hab : b ≠ a)
    (ht : t = (tick Config.phaseTable s).setRem a v) :
    t.rem a = v ∧ (∀ m : Motor, MotorTicked s t m) ∧ CounterTicked s t b ∧
      t.inputs = s.inputs ∧ t.undriven = s.undriven ∧ t.resets = s.resets := by
  subst ht
  refine ⟨by rw [rem_setRem, if_pos rfl], fun m => ?_, ?_, ?_⟩
  · simpa [MotorTicked] using Tick.motorTicked_tick s m
  · rw [CounterTicked, rem_setRem, if_neg hab]
    exact TickLaws.tick_counter_toInt _ s b
  · simpa using TickLaws.tick_frame Config.phaseTable s

/-- Settles O33: the write is to the horizontal counter. -/
theorem tickThenHorizontalMove : Obligations.TickThenHorizontalMove := fun s steps =>
  ⟨_, StepLaws.exec_tmovh steps s, tick_setRem (a := .h) (b := .v) (by decide) rfl⟩

/-- Settles O34: the write is to the vertical counter. -/
theorem tickThenVerticalMove : Obligations.TickThenVerticalMove := fun s steps =>
  ⟨_, StepLaws.exec_tmovv steps s, tick_setRem (a := .v) (b := .h) (by decide) rfl⟩

/-- Settles O35: the operation is the tick and then the write, and the move is that write with the strobes cleared. -/
theorem sameEdgeIsTickThenWrite : Obligations.SameEdgeIsTickThenWrite := by
  intro s u x a i steps htick hwrite hu hx
  rw [StepLaws.exec_tick] at hu
  cases hu
  rw [StepLaws.exec_moveOn] at hx
  cases hx
  refine ⟨(tick Config.phaseTable s).setRem a steps, ?_, rfl, emit_setRem _ a steps⟩
  rw [Operations.exec_eq_parts (Tick.isReset_of_hasTick htick), Operations.tickPart, if_pos htick,
    Operations.writePart_of_hostWrite hwrite]

end Sys2Proof.Proofs.TickAndWrite

/-!
Edges and runs (spec/43_cycle_ops.md sections 1, 3 and 6, spec/70_reset_and_hazards.md): the operation of an edge, one induction over the words of a run,
infinite executions, and the reset state.
-/

namespace Sys2Proof.Proofs.Edges

open Sys2Proof Sys2Proof.Machine Sys2Proof.Machine.StateLaws

/-! The operation of one edge. -/

/-- Settles O8: the first word named is the one sampled. -/
theorem stepRunsTheDecodedInstruction : Obligations.StepRunsTheDecodedInstruction :=
  fun _ _ _ h => MoveRequest.step_of_inputs_cons h

/-- Past the words named, the edge performs a free word (log 4). -/
theorem step_of_inputs_nil {s : State} (h : s.inputs = []) :
    step s = exec (decode (Config.undrivenWord s.undriven)) { s with undriven := s.undriven + 1 } := by
  rw [step, sampledWord_nil h, afterSample_nil h]

/-- Settles O10: with no word named the draw is sampled. -/
theorem undrivenEdgePerformsAFreeWord : Obligations.UndrivenEdgePerformsAFreeWord := fun _ h => step_of_inputs_nil h

/-- Settles O9: a word that asks for neither reset nor tick nor write asks for what NOP asks for. -/
theorem nothingAskedIsNop : Obligations.NothingAskedIsNop := by
  intro s h35 h34 h33
  have hnop : decode s.sampledWord = .nop := by
    apply Words.instr_ext
    · rw [Words.isReset_decode, h35]
      rfl
    · rw [Words.hasTick_decode, h34]
      rfl
    · rw [Words.hostWrite_decode, h33, Bool.and_false, if_neg Bool.false_ne_true]
      rfl
  rw [step, hnop]

/-- Settles O17: with bit 35 the word is a reset. -/
theorem resetWinsOverTickAndWrite : Obligations.ResetWinsOverTickAndWrite := by
  intro s w rest hin h35
  have hreset : decode w = .reset := Operations.eq_reset_of_isReset ((Words.isReset_decode w).trans h35)
  rw [MoveRequest.step_of_inputs_cons hin, hreset]

/-! The reset state and the invariant. -/

/-- Settles O15: by the reset values, axis by axis and motor by motor. -/
theorem stateAfterReset : Obligations.StateAfterReset :=
  ⟨fun a => by cases a <;> exact ⟨rfl, rfl⟩, fun m => by cases m <;> exact ⟨rfl, rfl, rfl⟩⟩

/-- Settles O16: by the writes of RESET. -/
theorem resetRestoresTheResetState : Obligations.ResetRestoresTheResetState := fun s =>
  ⟨_, StepLaws.exec_reset s, rem_resetRegisters s,
    fun m => ⟨idx_resetRegisters s m, emit_resetRegisters s m, coil_resetRegisters s m⟩, rfl, rfl, rfl, rfl⟩

/-- A state whose motors stand at 0 unstrobed, with the lines as the last reset drew them, has the invariant. -/
theorem inv_of_reset {s : State}
    (h : ∀ m : Motor, s.idx m = 0 ∧ s.emit m = false ∧ s.coil m = Config.coilReset s.resets m) : Inv s := by
  obtain ⟨hidx1, hemit1, -⟩ := h .verticalLeft
  obtain ⟨hidx2, hemit2, -⟩ := h .verticalRight
  refine ⟨?_, hemit1.trans hemit2.symm, fun m => ?_⟩
  · rw [pairMirrored, show s.idx1 = 0 from hidx1, show s.idx2 = 0 from hidx2]
    rfl
  · obtain ⟨hidx, -, hcoil⟩ := h m
    exact .inr ⟨hidx, hcoil⟩

/-- Settles O47: the reset state is the first draw's. -/
theorem resetStateHasTheInvariant : Obligations.ResetStateHasTheInvariant := inv_of_reset stateAfterReset.2

/-- Every operation keeps the invariant: the pair's sum and the lines of a motor not advanced are kept, and an advanced motor drives the pattern of
its new index. -/
theorem exec_keeps_inv {i : Instr} {s t : State} (hs : Inv s) (h : exec i s = .next t) : Inv t := by
  obtain ⟨rfl, rfl⟩ | ⟨hi, -⟩ := Operations.exec_inv h
  · exact inv_of_reset fun m => ⟨idx_resetRegisters s m, emit_resetRegisters s m, coil_resetRegisters s m⟩
  · obtain ⟨-, hsum⟩ := Tick.verticalPairIsMirrored.2 i s t h hi
    refine ⟨hsum.trans hs.mirrored, Operations.exec_vertical_strobes h, fun m => ?_⟩
    obtain ⟨-, hidx, hcoil, -⟩ | ⟨-, hidx, hcoil, -⟩ := Operations.exec_motor h hi m
    · exact .inl (by rw [hcoil, hidx])
    · obtain ⟨-, -, hresets⟩ := Operations.exec_frame h
      rw [hi, if_neg Bool.false_ne_true] at hresets
      rw [linesFollowIndex, hidx, hcoil, hresets]
      exact hs.lines m

/-- The pins are no part of the invariant. -/
theorem inv_afterSample {s : State} (h : Inv s) : Inv s.afterSample := by
  obtain ⟨hmirrored, hstrobed, hlines⟩ := h
  refine ⟨?_, ?_, fun m => ?_⟩
  · simpa [pairMirrored] using hmirrored
  · simpa [pairStrobedTogether] using hstrobed
  · simpa [linesFollowIndex] using hlines m

/-- Settles O46: an edge is one operation on the state with the word gone from the pins. -/
theorem stepKeepsTheInvariant : Obligations.StepKeepsTheInvariant :=
  fun _ _ hs h => exec_keeps_inv (inv_afterSample hs) h

/-- Settles O21: the second move overwrites the counter the first wrote, and no motor is touched. -/
theorem lastMoveWins : Obligations.LastMoveWins := by
  intro a v w s t h
  rw [StepLaws.exec_moveOn] at h
  cases h
  rw [StepLaws.exec_moveOn, StepLaws.exec_moveOn, StepLaws.exec_moveOn]
  exact ⟨by cases a <;> rfl, by cases a <;> rfl, fun m => by simp⟩

/-! Runs over the words the state names. -/

/-- A relation that holds of no words, and of one more word in front whenever it holds of the rest, holds of every run: the state before it, its
words, the state after it, and its events. -/
theorem run_induction {P : InputWord → Prop} {R : State → List InputWord → State → List Emission → Prop}
    (nil : ∀ s : State, R s [] s [])
    (cons : ∀ (s t u : State) (w : InputWord) (ws rest : List InputWord) (es : List Emission), P w →
      exec (decode w) { s with inputs := ws ++ rest } = .next t → R t ws u es → R s (w :: ws) u (pinEmissions t ++ es))
    {s : State} {ws rest : List InputWord} (hin : s.inputs = ws ++ rest) (hws : ∀ w ∈ ws, P w) :
    ∃ u : State, Host.Core.run core ws.length s = .next u ∧ u.inputs = rest ∧ R s ws u (runEmissions ws.length s) := by
  induction ws generalizing s with
  | nil => exact ⟨s, rfl, hin, nil s⟩
  | cons w ws ih =>
    obtain ⟨hw, hlater⟩ := List.forall_mem_cons.mp hws
    obtain ⟨t, hexec⟩ := Encoding.exec_completes (decode w) { s with inputs := ws ++ rest }
    have hstep : step s = .next t := (MoveRequest.step_of_inputs_cons hin).trans hexec
    obtain ⟨u, hrun, hrest, hR⟩ := ih (MoveRequest.exec_inputs hexec) hlater
    refine ⟨u, (StepLaws.run_succ _ hstep).trans hrun, hrest, ?_⟩
    rw [List.length_cons, StepLaws.runEmissions_succ _ hstep]
    exact cons s t u w ws rest _ hw hexec hR

/-- Nothing but the strobes changed, and nothing was shown. -/
def Held (s : State) (_ : List InputWord) (t : State) (es : List Emission) : Prop :=
  (∀ a : Axis, t.rem a = s.rem a) ∧ (∀ m : Motor, t.idx m = s.idx m ∧ t.coil m = s.coil m) ∧ es = []

theorem held_of_nop_first {s t u : State} {w : InputWord} {ws r : List InputWord} {es : List Emission} (hw : decode w = .nop)
    (h : exec (decode w) { s with inputs := r } = .next t) (hlater : Held t ws u es) :
    Held s (w :: ws) u (pinEmissions t ++ es) := by
  rw [hw, StepLaws.exec_nop] at h
  cases h
  obtain ⟨hrem, hmotor, rfl⟩ := hlater
  refine ⟨fun a => ?_, fun m => ?_, ?_⟩
  · rw [hrem, rem_clearEmits, rem_withInputs]
  · obtain ⟨hidx, hcoil⟩ := hmotor m
    exact ⟨by rw [hidx, idx_clearEmits, idx_withInputs], by rw [hcoil, coil_clearEmits, coil_withInputs]⟩
  · rw [MoveRequest.pinEmissions_clearEmits, List.append_nil]

/-- Settles O18: NOP is the clearing of the strobes, and each NOP of a run holds what the rest of it holds. -/
theorem nopHoldsEverything : Obligations.NopHoldsEverything := by
  refine ⟨StepLaws.exec_nop, fun ws rest s hin hws => ?_⟩
  obtain ⟨t, hrun, -, hheld⟩ := run_induction (R := Held) (fun _ => ⟨fun _ => rfl, fun _ => ⟨rfl, rfl⟩, rfl⟩)
    (fun _ _ _ _ _ _ _ hw h hlater => held_of_nop_first hw h hlater) hin hws
  exact ⟨t, hrun, hheld⟩

/-! Until a motor's first pattern. -/

/-- Either the motor received nothing, and stands with its lines as they were, or the first pattern it received is that of a neighbouring index. -/
def QuietOrNeighbour (m : Motor) (s : State) (_ : List InputWord) (t : State) (es : List Emission) : Prop :=
  (patternsTo m es = [] ∧ t.idx m = s.idx m ∧ t.coil m = s.coil m) ∨
  ∃ (i : PhaseIndex) (ps : List Pattern), (i = s.idx m + 1 ∨ i = s.idx m - 1) ∧
    patternsTo m es = Config.phaseTable i :: ps

theorem quietOrNeighbour_cons {m : Motor} {s t u : State} {w : InputWord} {ws r : List InputWord} {es : List Emission}
    (hw : isReset (decode w) = false) (h : exec (decode w) { s with inputs := r } = .next t)
    (hlater : QuietOrNeighbour m t ws u es) : QuietOrNeighbour m s (w :: ws) u (pinEmissions t ++ es) := by
  rw [QuietOrNeighbour, StepLaws.patternsTo_append, StepLaws.patternsTo_pinEmissions]
  obtain ⟨⟨-, hactive⟩, -, hcoil, hemit⟩ | ⟨-, hidx, hcoil, hemit⟩ := Operations.exec_motor h hw m
  · refine .inr ⟨Operations.nextOf { s with inputs := r } m, patternsTo m es, ?_, by simp [hemit, hcoil]⟩
    rw [Operations.nextOf_eq hactive, idx_withInputs]
    split
    · exact .inl rfl
    · exact .inr rfl
  · rw [hemit, if_neg Bool.false_ne_true, List.nil_append, ← idx_withInputs s r, ← coil_withInputs s r, ← hidx, ← hcoil]
    exact hlater

theorem run_quietOrNeighbour (m : Motor) {s : State} {ws rest : List InputWord} (hin : s.inputs = ws ++ rest)
    (hws : ∀ w ∈ ws, isReset (decode w) = false) :
    ∃ t : State, Host.Core.run core ws.length s = .next t ∧ QuietOrNeighbour m s ws t (runEmissions ws.length s) := by
  obtain ⟨t, hrun, -, hquiet⟩ := run_induction (R := QuietOrNeighbour m) (fun _ => .inl ⟨rfl, rfl, rfl⟩)
    (fun _ _ _ _ _ _ _ hw h hlater => quietOrNeighbour_cons hw h hlater) hin hws
  exact ⟨t, hrun, hquiet⟩

/-- A motor that received nothing over a run without a reset stands where it stood, its lines as they were (44_pin_emission R123). -/
theorem run_quiet {m : Motor} {s : State} {ws rest : List InputWord} (hin : s.inputs = ws ++ rest)
    (hws : ∀ w ∈ ws, isReset (decode w) = false) (hnone : patternsTo m (runEmissions ws.length s) = []) :
    ∃ t : State, Host.Core.run core ws.length s = .next t ∧ t.idx m = s.idx m ∧ t.coil m = s.coil m := by
  obtain ⟨t, hrun, ⟨-, hkept⟩ | ⟨i, ps, -, hsome⟩⟩ := run_quietOrNeighbour m hin hws
  · exact ⟨t, hrun, hkept⟩
  · simp [hnone] at hsome

/-- Settles O42: over one operation by its strobe, over a run by what the motor received. -/
theorem linesHoldBetweenEmissions : Obligations.LinesHoldBetweenEmissions := by
  refine ⟨fun i s t m h hi => ⟨fun he => ?_, fun he => ?_⟩, fun m ws rest s hin hws hnone => ?_⟩
  · exact (Operations.exec_unstrobed h hi he).2
  · exact (Operations.emissionExactlyWhenAdvanced i s t m h).2 he
  · obtain ⟨t, hrun, -, hcoil⟩ := run_quiet hin hws hnone
    exact ⟨t, hrun, hcoil⟩

/-- The first step of a motor that stands at index 0 (70_reset R164). -/
theorem first_step {m : Motor} {i : Instr} {t u : State} (hidx : t.idx m = 0) (hactive : t.rem m.axis ≠ 0)
    (htick : hasTick i = true) (h : exec i t = .next u) :
    u.idx m = (if motorSense m * sgn (t.rem m.axis).toInt = 1 then 1 else 7) ∧
    pinEmissionOfMotor u m =
      [⟨m, Config.phaseTable (if motorSense m * sgn (t.rem m.axis).toInt = 1 then 1 else 7)⟩] := by
  have hemit : u.emit m = true := (Operations.exec_emit_iff h m).mpr ⟨htick, hactive⟩
  obtain ⟨kidx, kcoil⟩ := Operations.exec_strobed h hemit
  have hnext : Operations.nextOf t m = if motorSense m * sgn (t.rem m.axis).toInt = 1 then 1 else 7 := by
    rw [Operations.nextOf_eq hactive, hidx]
    rfl
  exact ⟨kidx.trans hnext, by rw [pinEmissionOfMotor, if_pos hemit, kcoil, hnext]⟩

/-- A reset, or the reset state itself, leaves every index 0. -/
theorem idx_zero_after_reset {r s : State} {ws : List InputWord}
    (h : exec .reset r = .next s ∨ s = { State.reset with inputs := ws }) (m : Motor) : s.idx m = 0 := by
  obtain h | rfl := h
  · cases h
    exact idx_resetRegisters r m
  · rw [idx_withInputs]
    exact (stateAfterReset.2 m).1

/-- Settles O51: until its first pattern a motor stands at index 0, whose neighbours are 1 and 7. -/
theorem firstEmissionAfterReset : Obligations.FirstEmissionAfterReset := by
  refine ⟨fun r s ws rest m hreset hin hws => ?_, fun r s t u a steps hsteps hreset hmove htick m hm => ?_⟩
  · have hzero := idx_zero_after_reset hreset m
    refine ⟨fun hnone => ?_, fun p ps hsome => ?_⟩
    · obtain ⟨t, hrun, hidx, hcoil⟩ := run_quiet hin hws hnone
      refine ⟨t, hrun, hcoil, hidx.trans hzero, fun i hi hactive => ?_⟩
      obtain ⟨u, hexec⟩ := Encoding.exec_completes i t
      exact ⟨u, hexec, first_step (hidx.trans hzero) hactive hi hexec⟩
    · obtain ⟨-, -, ⟨hnone, -⟩ | ⟨i, qs, hi, hfirst⟩⟩ := run_quietOrNeighbour m hin hws
      · simp [hnone] at hsome
      · obtain ⟨rfl, -⟩ := List.cons.inj (hfirst.symm.trans hsome)
        rw [hzero] at hi
        obtain rfl | rfl := hi
        · exact .inl rfl
        · exact .inr rfl
  · subst hm
    have hzero := idx_zero_after_reset (ws := []) (.inl hreset) m
    rw [StepLaws.exec_moveOn] at hmove
    cases hmove
    have hrem : ((s.setRem m.axis steps).clearEmits).rem m.axis = steps := by rw [rem_clearEmits, rem_setRem, if_pos rfl]
    have hfirst := first_step (m := m) (by simpa using hzero) (by rwa [hrem]) rfl htick
    rw [hrem] at hfirst
    exact ⟨by simp, hfirst⟩

/-! Infinite executions. -/

/-- An operation neither sees nor touches the words to come. -/
theorem exec_withWords {i : Instr} {s t : State} (h : exec i s = .next t) (r : List InputWord) :
    exec i { s with inputs := r } = .next { t with inputs := r } := by
  obtain ⟨-, hundriven, -⟩ := Operations.exec_frame h
  have hboth := StepLaws.exec_withInputs r s.undriven h
  rwa [← hundriven] at hboth ⊢

/-- The first `n` words of an execution, named in the state, are a run that answers what the execution answers. -/
theorem run_of_execution (words : Nat → InputWord) (s : State) (n : Nat) :
    ∃ t : State, executionAfter words s n = .next t ∧ ∀ rest : List InputWord,
      Host.Core.run core n { s with inputs := (List.range n).map words ++ rest } = .next { t with inputs := rest } := by
  induction n generalizing words s with
  | zero => exact ⟨s, rfl, fun _ => rfl⟩
  | succ n ih =>
    obtain ⟨t, hexec⟩ := Encoding.exec_completes (decode (words 0)) s
    obtain ⟨u, hafter, hrun⟩ := ih (fun k => words (k + 1)) t
    refine ⟨u, (StepLaws.executionAfter_cons hexec n).trans hafter, fun rest => ?_⟩
    have hstep : step { s with inputs := (List.range (n + 1)).map words ++ rest } =
        .next { t with inputs := (List.range n).map (fun k => words (k + 1)) ++ rest } := by
      rw [List.range_succ_eq_map, List.map_cons, List.map_map, MoveRequest.step_of_inputs_cons rfl]
      exact exec_withWords hexec _
    rw [StepLaws.run_succ n hstep, hrun rest]

/-- Nor does it see or touch the count of free words. -/
theorem exec_withUndriven {i : Instr} {s t : State} (h : exec i s = .next t) (n : Nat) :
    exec i { s with undriven := n } = .next { t with undriven := n } := by
  have hboth := StepLaws.exec_withInputs s.inputs n h
  rwa [← MoveRequest.exec_inputs h] at hboth ⊢

/-- The run on no named word, from the `u`-th free word on, is the execution on the free words. -/
theorem run_of_undriven {s : State} (hin : s.inputs = []) (u n : Nat) :
    ∃ t : State, executionAfter (fun k => Config.undrivenWord (u + k)) s n = .next t ∧
      Host.Core.run core n { s with undriven := u } = .next { t with undriven := u + n } := by
  induction n generalizing s u with
  | zero => exact ⟨s, rfl, rfl⟩
  | succ n ih =>
    obtain ⟨t, hexec⟩ := Encoding.exec_completes (decode (Config.undrivenWord u)) s
    obtain ⟨v, hafter, hrun⟩ := ih ((MoveRequest.exec_inputs hexec).trans hin) (u + 1)
    have hwords : (fun k => Config.undrivenWord (u + 1 + k)) = fun k => Config.undrivenWord (u + (k + 1)) :=
      funext fun k => by rw [Nat.add_right_comm, Nat.add_assoc]
    have hstep : step { s with undriven := u } = .next { t with undriven := u + 1 } :=
      (step_of_inputs_nil (s := { s with undriven := u }) hin).trans (exec_withUndriven hexec (u + 1))
    refine ⟨v, ?_, ?_⟩
    · rw [StepLaws.executionAfter_cons (words := fun k => Config.undrivenWord (u + k)) hexec, ← hwords, hafter]
    · rw [StepLaws.run_succ n hstep, hrun, Nat.add_right_comm, Nat.add_assoc]

/-- Settles O11: by induction on the number of words, the first one first. -/
theorem executionsNeverEndAndAreRuns : Obligations.ExecutionsNeverEndAndAreRuns :=
  ⟨run_of_execution, fun s n hin => run_of_undriven hin s.undriven n⟩

end Sys2Proof.Proofs.Edges

/-!
The closed form of a move (spec/42_tick.md section 4, rule R98; spec/44_pin_emission.md, rule R127; spec/70_reset_and_hazards.md section 3, rule R166):
how far a request has come after n ticks, over runs and over infinite executions.
-/

namespace Sys2Proof.Proofs.ClosedForm

open Sys2Proof Sys2Proof.Machine Sys2Proof.Machine.StateLaws

/-! How far a request has come, in plain integers. -/

/-- The signed number of steps a request of `r` has taken after `n` ticks. -/
def progress (r : Int) (n : Nat) : Int := sgn r * (min n r.natAbs : Nat)

theorem progress_zero (r : Int) : progress r 0 = 0 := by simp [progress]

/-- A request not done after one tick keeps its sign. -/
theorem sgn_sub_sgn {r : Int} (h : r - sgn r ≠ 0) : sgn (r - sgn r) = sgn r := by
  unfold sgn at h ⊢
  split at h <;> split <;> split <;> omega

/-- The first tick takes one step, if any is asked, and the rest of them see the request less that step. -/
theorem progress_succ (r : Int) (n : Nat) : progress r (n + 1) = sgn r + progress (r - sgn r) n := by
  obtain ⟨habs, -⟩ := TickAndWrite.sub_sgn_toward_zero r
  by_cases hr : r = 0
  · subst hr
    simp [progress, sgn]
  · have hmin : min (n + 1) r.natAbs = min n (r - sgn r).natAbs + 1 := by omega
    rw [progress, progress, hmin]
    by_cases hdone : r - sgn r = 0
    · simp [hdone]
    · rw [sgn_sub_sgn hdone, Nat.cast_add_one, Int.mul_add, Int.mul_one, Int.add_comm]

/-- With as many ticks as steps the request is done. -/
theorem progress_of_le {r : Int} {n : Nat} (h : r.natAbs ≤ n) : progress r n = r := by
  rw [progress, Nat.min_eq_right h, sgn]
  split
  · omega
  · split <;> omega

/-! The counter and the motors of an axis left to the ticks. -/

/-- From `s` to `t` the axis has taken the steps of `n` ticks: off its counter, and onto each of its motors in the motor's sense. -/
def Moved (a : Axis) (s t : State) (n : Nat) : Prop :=
  (t.rem a).toInt = (s.rem a).toInt - progress (s.rem a).toInt n ∧
  ∀ m : Motor, m.axis = a →
    ((t.idx m).toNat : Int) = ((s.idx m).toNat + motorSense m * progress (s.rem a).toInt n) % 8

theorem moved_zero (a : Axis) (s : State) : Moved a s s 0 := by
  refine ⟨by rw [progress_zero, Int.sub_zero], fun m _ => ?_⟩
  have hlt : (s.idx m).toNat < 8 := (s.idx m).isLt
  rw [progress_zero, Int.mul_zero]
  omega

/-- An operation that leaves the counter to the ticks, before the rest. -/
theorem moved_cons {a : Axis} {i : Instr} {s t u : State} {n : Nat} (hi : leavesCounterToTicks a i = true)
    (h : exec i s = .next t) (hlater : Moved a t u n) : Moved a s u (n + if hasTick i then 1 else 0) := by
  obtain ⟨hreset, hwrite⟩ := (Operations.leavesCounterToTicks_iff a i).mp hi
  obtain ⟨krem, kidx⟩ := hlater
  have hrem := Operations.exec_rem_toInt h hreset hwrite
  rw [hrem] at krem kidx
  cases htick : hasTick i with
  | false =>
    rw [htick, if_neg Bool.false_ne_true, Int.sub_zero] at krem kidx
    refine ⟨krem, fun m hm => ?_⟩
    have hidx := Tick.exec_idx_toNat h hreset m
    rw [htick, if_neg Bool.false_ne_true, Int.mul_zero, Int.add_zero] at hidx
    rw [kidx m hm, hidx, Int.emod_add_emod]
    rfl
  | true =>
    rw [htick, if_pos rfl] at krem kidx
    rw [if_pos rfl, Moved, progress_succ]
    refine ⟨by omega, fun m hm => ?_⟩
    have hidx := Tick.exec_idx_toNat h hreset m
    rw [htick, if_pos rfl, hm] at hidx
    rw [kidx m hm, hidx, Int.emod_add_emod, Int.mul_add, Int.add_assoc]

/-! The patterns a motor receives. -/

/-- The patterns of the first `n` ticks of a request of `r`, for a motor at index `i`: those of the indices one, two, ... steps on in its sense. -/
def movePatterns (m : Motor) (i : PhaseIndex) (r : Int) (n : Nat) : List Pattern :=
  (List.range (min n r.natAbs)).map fun j : Nat =>
    lookup Config.phaseTable ((i.toNat : Int) + motorSense m * sgn r * ((j : Int) + 1))

theorem movePatterns_zero_ticks (m : Motor) (i : PhaseIndex) (r : Int) : movePatterns m i r 0 = [] := by
  simp [movePatterns]

theorem movePatterns_zero_steps (m : Motor) (i : PhaseIndex) (n : Nat) : movePatterns m i 0 n = [] := by
  simp [movePatterns]

theorem lookup_congr (pt : PhaseTable) {i j : Int} (h : i % 8 = j % 8) : lookup pt i = lookup pt j :=
  congrArg pt (ArithLaws.mod8_congr h)

/-- The first pattern is that of the index `k` one step on, and the others are those of the rest of the request from there. -/
theorem movePatterns_succ {m : Motor} {i k : PhaseIndex} {r : Int} (n : Nat) (hr : r ≠ 0)
    (hk : (k.toNat : Int) = ((i.toNat : Int) + motorSense m * sgn r) % 8) :
    movePatterns m i r (n + 1) = Config.phaseTable k :: movePatterns m k (r - sgn r) n := by
  obtain ⟨habs, -⟩ := TickAndWrite.sub_sgn_toward_zero r
  have hmin : min (n + 1) r.natAbs = min n (r - sgn r).natAbs + 1 := by omega
  rw [movePatterns, hmin, List.range_succ_eq_map, List.map_cons, List.map_map]
  congr 1
  · refine PhaseTable.lookup_of_emod_eq _ ?_
    rw [hk, Nat.cast_zero, Int.zero_add, Int.mul_one]
  · refine List.map_congr_left fun j hj => lookup_congr _ ?_
    have hlt := List.mem_range.mp hj
    rw [sgn_sub_sgn (r := r) (by omega), hk, Int.emod_add_emod, Nat.cast_succ]
    congr 1
    ring

/-- Every motor of the axis has moved, and received the patterns of its way. -/
def MovedShowing (a : Axis) (s : State) (ws : List InputWord) (t : State) (es : List Emission) : Prop :=
  Moved a s t (tickCount ws) ∧ ∀ m : Motor, m.axis = a →
    patternsTo m es = movePatterns m (s.idx m) (s.rem a).toInt (tickCount ws)

/-- The pattern of one edge, before those of the rest. -/
theorem patterns_cons {m : Motor} {i : Instr} {s t : State} (n : Nat) (hi : leavesCounterToTicks m.axis i = true)
    (h : exec i s = .next t) :
    patternsTo m (pinEmissions t) ++ movePatterns m (t.idx m) (t.rem m.axis).toInt n =
      movePatterns m (s.idx m) (s.rem m.axis).toInt (n + if hasTick i then 1 else 0) := by
  obtain ⟨hreset, hwrite⟩ := (Operations.leavesCounterToTicks_iff m.axis i).mp hi
  rw [StepLaws.patternsTo_pinEmissions, Operations.exec_rem_toInt h hreset hwrite]
  obtain ⟨⟨htick, hactive⟩, hidx, hcoil, hemit⟩ | ⟨hnot, hidx, -, hemit⟩ := Operations.exec_motor h hreset m
  · have hnext := Tick.exec_idx_toNat h hreset m
    rw [htick, if_pos rfl] at hnext
    rw [hemit, hcoil, ← hidx, htick, if_pos rfl, if_pos rfl, if_pos rfl,
      movePatterns_succ n (ArithLaws.counter_toInt_ne_zero hactive) hnext]
    rfl
  · rw [hemit, hidx, if_neg Bool.false_ne_true, List.nil_append]
    cases htick : hasTick i with
    | false => simp
    | true =>
      have hidle : s.rem m.axis = 0 := by
        by_contra hactive
        exact hnot ⟨htick, hactive⟩
      have hzero : (s.rem m.axis).toInt = 0 := by rw [hidle]; rfl
      simp [hzero, sgn, movePatterns_zero_steps]

theorem movedShowing_cons {a : Axis} {s t u : State} {w : InputWord} {ws r : List InputWord} {es : List Emission}
    (hw : leavesCounterToTicks a (decode w) = true) (h : exec (decode w) { s with inputs := r } = .next t)
    (hlater : MovedShowing a t ws u es) : MovedShowing a s (w :: ws) u (pinEmissions t ++ es) := by
  obtain ⟨hmoved, hpatterns⟩ := hlater
  have hcount : tickCount (w :: ws) = tickCount ws + if hasTick (decode w) then 1 else 0 := List.countP_cons
  rw [MovedShowing, hcount]
  refine ⟨by simpa [Moved] using moved_cons hw h hmoved, fun m hm => ?_⟩
  subst hm
  rw [StepLaws.patternsTo_append, hpatterns m rfl, patterns_cons _ hw h, idx_withInputs, rem_withInputs]

/-- Over any words that neither reset nor write the axis's counter. -/
theorem run_movedShowing {a : Axis} {s : State} {ws rest : List InputWord} (hin : s.inputs = ws ++ rest)
    (hws : noOtherWrite a ws = true) :
    ∃ t : State, Host.Core.run core ws.length s = .next t ∧ t.inputs = rest ∧
      MovedShowing a s ws t (runEmissions ws.length s) :=
  Edges.run_induction (R := MovedShowing a)
    (fun s => ⟨moved_zero a s, fun m _ => (movePatterns_zero_ticks m _ _).symm⟩)
    (fun _ _ _ _ _ _ _ hw h hlater => movedShowing_cons hw h hlater) hin (List.all_eq_true.mp hws)

/-- After a move of the axis and such words: the counter, the motors and their patterns, from the operand and the indices before the move. -/
theorem run_after_move {a : Axis} {s : State} {steps : Counter} {move : InputWord} {ws rest : List InputWord}
    (hin : s.inputs = move :: (ws ++ rest)) (hmove : decode move = moveOn a steps) (hws : noOtherWrite a ws = true) :
    ∃ t : State, Host.Core.run core (ws.length + 1) s = .next t ∧ t.inputs = rest ∧
      (t.rem a).toInt = steps.toInt - progress steps.toInt (tickCount ws) ∧
      ∀ m : Motor, m.axis = a →
        ((t.idx m).toNat : Int) = ((s.idx m).toNat + motorSense m * progress steps.toInt (tickCount ws)) % 8 ∧
        patternsTo m (runEmissions (ws.length + 1) s) = movePatterns m (s.idx m) steps.toInt (tickCount ws) := by
  have hstep : step s = .next ((State.setRem { s with inputs := ws ++ rest } a steps).clearEmits) := by
    rw [MoveRequest.step_of_inputs_cons hin, hmove, StepLaws.exec_moveOn]
  obtain ⟨t, hrun, hrest, ⟨hrem, hidx⟩, hpatterns⟩ := run_movedShowing
    (s := (State.setRem { s with inputs := ws ++ rest } a steps).clearEmits) (setRem_inputs _ a steps) hws
  simp only [rem_clearEmits, rem_setRem, if_true, idx_clearEmits, idx_setRem, idx_withInputs] at hrem hidx hpatterns
  refine ⟨t, (StepLaws.run_succ _ hstep).trans hrun, hrest, hrem, fun m hm => ⟨hidx m hm, ?_⟩⟩
  rw [StepLaws.runEmissions_succ _ hstep, MoveRequest.pinEmissions_clearEmits, List.nil_append, hpatterns m hm]

/-- Settles O36: the one motor of the axis turns in the positive sense. -/
theorem closedFormHorizontal : Obligations.ClosedFormHorizontal := by
  intro s steps move ws rest hin hmove hws
  obtain ⟨t, hrun, hrest, hrem, hmotor⟩ := run_after_move (a := .h) hin hmove hws
  obtain ⟨hidx, -⟩ := hmotor .horizontal rfl
  rw [motorSense, Int.one_mul] at hidx
  exact ⟨t, hrun, hrest, hrem, hidx⟩

/-- Settles O37: the two motors of the axis have opposite senses. -/
theorem closedFormVertical : Obligations.ClosedFormVertical := by
  intro s steps move ws rest hin hmove hws
  obtain ⟨t, hrun, hrest, hrem, hmotor⟩ := run_after_move (a := .v) hin hmove hws
  obtain ⟨hleft, -⟩ := hmotor .verticalLeft rfl
  obtain ⟨hright, -⟩ := hmotor .verticalRight rfl
  rw [motorSense, Int.one_mul] at hleft
  rw [motorSense, Int.neg_one_mul, ← Int.sub_eq_add_neg] at hright
  exact ⟨t, hrun, hrest, hrem, hleft, hright⟩

/-- Settles O38: each edge shows the pattern of one step, or none. -/
theorem emissionsFollowTheMove : Obligations.EmissionsFollowTheMove := by
  intro s m steps move ws rest hin hmove hws
  obtain ⟨_, -, -, -, hmotor⟩ := run_after_move hin hmove hws
  exact (hmotor m rfl).2

/-! Infinite executions. -/

/-- How many of the first `n` words of an execution tick. -/
def ticksBefore (words : Nat → InputWord) (n : Nat) : Nat := Nat.count (fun k => hasTick (decode (words k)) = true) n

theorem execution_moved {a : Axis} {words : Nat → InputWord}
    (hwords : ∀ n : Nat, leavesCounterToTicks a (decode (words n)) = true) (s : State) (n : Nat) :
    ∃ t : State, executionAfter words s n = .next t ∧ Moved a s t (ticksBefore words n) := by
  induction n generalizing words s with
  | zero => exact ⟨s, rfl, by simpa [ticksBefore] using moved_zero a s⟩
  | succ n ih =>
    obtain ⟨t, hexec⟩ := Encoding.exec_completes (decode (words 0)) s
    obtain ⟨u, hafter, hmoved⟩ := ih (words := fun k => words (k + 1)) (fun k => hwords (k + 1)) t
    refine ⟨u, (StepLaws.executionAfter_cons hexec n).trans hafter, ?_⟩
    rw [ticksBefore, Nat.count_succ']
    exact moved_cons (hwords 0) hexec hmoved

/-- If ticks keep coming, any number of them comes. -/
theorem exists_ticksBefore_eq {words : Nat → InputWord} (h : ticksKeepComing words) (k : Nat) :
    ∃ n : Nat, ticksBefore words n = k := by
  refine Nat.surjective_count_of_infinite_setOfPred (Set.infinite_of_forall_exists_gt fun n => ?_) k
  obtain ⟨j, hlt, hj⟩ := h (n + 1)
  exact ⟨j, hj, hlt⟩

theorem ticksBefore_mono (words : Nat → InputWord) {n k : Nat} (h : n ≤ k) : ticksBefore words n ≤ ticksBefore words k :=
  Nat.count_monotone _ h

theorem ticksBefore_eq_zero {words : Nat → InputWord} (h : ∀ n : Nat, hasTick (decode (words n)) = false) (n : Nat) :
    ticksBefore words n = 0 := by
  simp [ticksBefore, h]

/-- Settles O39: the request is done once as many ticks have come as it has steps, and no tick takes none. -/
theorem moveCompletesIfTicksKeepComing : Obligations.MoveCompletesIfTicksKeepComing := by
  intro words s a hwords
  refine ⟨fun hticks => ?_, fun hnone k => ?_⟩
  · obtain ⟨n, hn⟩ := exists_ticksBefore_eq hticks (s.rem a).toInt.natAbs
    refine ⟨n, fun k hk => ?_⟩
    obtain ⟨t, hafter, hrem, hidx⟩ := execution_moved hwords s k
    have hdone := progress_of_le (hn.symm.le.trans (ticksBefore_mono words hk))
    rw [hdone] at hrem hidx
    refine ⟨t, hafter, ?_, hidx⟩
    rw [Operations.readPort_addressOf]
    apply BitVec.eq_of_toInt_eq
    rw [hrem, Int.sub_self]
    rfl
  · obtain ⟨t, hafter, hrem, -⟩ := execution_moved hwords s k
    rw [ticksBefore_eq_zero hnone, progress_zero, Int.sub_zero] at hrem
    exact ⟨t, hafter, BitVec.eq_of_toInt_eq hrem⟩

end Sys2Proof.Proofs.ClosedForm

/-!
The events and the source's own machine (spec/44_pin_emission.md, spec/43_cycle_ops.md section 6, rules R116 and R117): an operation's events as its pins
show them, the transaction level, and the step function on the raw word.
-/

namespace Sys2Proof.Proofs.Transactions

open Sys2Proof Sys2Proof.Machine Sys2Proof.Machine.StateLaws

/-! The events of an operation. -/

theorem emissionOfMotor_of_idle (pt : PhaseTable) {s : State} {m : Motor} (h : s.rem m.axis = 0) :
    emissionOfMotor pt s m = [] := by
  rw [emissionOfMotor, if_pos h]

theorem emissionOfMotor_of_active (pt : PhaseTable) {s : State} {m : Motor} (h : s.rem m.axis ≠ 0) :
    emissionOfMotor pt s m = [⟨m, pt (Operations.nextOf s m)⟩] := by
  rw [emissionOfMotor, if_neg h, ArithLaws.dir_eq_sgn h]
  rfl

theorem emissionOfMotor_congr (pt : PhaseTable) {s t : State} {m : Motor} (hrem : s.rem m.axis = t.rem m.axis)
    (hidx : s.idx m = t.idx m) : emissionOfMotor pt s m = emissionOfMotor pt t m := by
  rw [emissionOfMotor, emissionOfMotor, hrem, hidx]

/-- The event of one motor, computed from the state before the operation, is what its pins show after it. -/
theorem pinEmissionOfMotor_exec {i : Instr} {s t : State} (h : exec i s = .next t) (m : Motor) :
    pinEmissionOfMotor t m = if hasTick i then emissionOfMotor Config.phaseTable s m else [] := by
  rw [pinEmissionOfMotor]
  by_cases hadv : Operations.Advances i s m
  · have hemit := (Operations.exec_emit_iff h m).mpr hadv
    obtain ⟨-, hcoil⟩ := Operations.exec_strobed h hemit
    obtain ⟨htick, hactive⟩ := hadv
    rw [if_pos hemit, if_pos htick, emissionOfMotor_of_active _ hactive, hcoil]
  · rw [if_neg fun he => hadv ((Operations.exec_emit_iff h m).mp he)]
    split
    · next htick => exact (emissionOfMotor_of_idle _ (by_contra fun hactive => hadv ⟨htick, hactive⟩)).symm
    · rfl

theorem pinEmissions_exec {i : Instr} {s t : State} (h : exec i s = .next t) :
    pinEmissions t = emissionsOf Config.phaseTable i s := by
  rw [pinEmissions, emissionsOf, List.flatMap_congr fun m _ => pinEmissionOfMotor_exec h m]
  split
  · rfl
  · simp

/-- An emission is on the pins exactly if its motor is strobed with its pattern on the lines. -/
theorem mem_pinEmissions {s : State} {e : Emission} :
    e ∈ pinEmissions s ↔ s.emit e.motor = true ∧ e.pattern = s.coil e.motor := by
  have hall : ∀ m : Motor, m ∈ Motor.all := fun m => by cases m <;> decide
  have hone : ∀ m : Motor, e ∈ pinEmissionOfMotor s m ↔ s.emit m = true ∧ e = ⟨m, s.coil m⟩ := fun m => by
    unfold pinEmissionOfMotor
    split <;> simp_all
  simp only [pinEmissions, List.mem_flatMap, hone]
  refine ⟨?_, fun ⟨hemit, hcoil⟩ => ⟨e.motor, hall _, hemit, by rw [← hcoil]⟩⟩
  rintro ⟨m, -, hemit, rfl⟩
  exact ⟨hemit, rfl⟩

/-- Line `k` is written with bit `k` of the pattern (44_pin_emission R120). -/
theorem mem_setLinesOf {m : Motor} {k : Fin 4} {v : Bool} {e : Emission} :
    ⟨m, k, v⟩ ∈ setLinesOf e ↔ m = e.motor ∧ v = e.pattern.getLsbD k := by
  fin_cases k <;> simp [setLinesOf]

/-- Settles O41: the four writes of each emission the pins show. -/
theorem pinsShowTheEvents : Obligations.PinsShowTheEvents := by
  intro i s t h
  refine ⟨pinEmissions_exec h, fun m k v => ?_⟩
  rw [← pinEmissions_exec h]
  simp only [List.mem_flatMap, mem_pinEmissions, mem_setLinesOf]
  refine ⟨?_, fun ⟨hemit, hv⟩ => ⟨⟨m, t.coil m⟩, ⟨hemit, rfl⟩, rfl, hv⟩⟩
  rintro ⟨e, ⟨hemit, hcoil⟩, rfl, rfl⟩
  exact ⟨hemit, by rw [hcoil]⟩

/-! The transaction level. -/

/-- The index a half of the source's tick computes is the stored one, and its lookup the ROM's pattern there (42_tick R92, R94). -/
theorem lookup_nextIndex (pt : PhaseTable) (i : PhaseIndex) (d : Int) :
    lookup pt (((i.toNat : Int) + 8 + d) % 8) = pt (nextIndex i d) := by
  rw [← ArithLaws.nextIndex_toNat, ArithLaws.lookup_stored]

theorem txTickH_eq (pt : PhaseTable) (s : State) :
    txTickH pt (txStateOf s) = (txStateOf (tickH pt s), emissionOfMotor pt s .horizontal) := by
  by_cases h : s.remH = 0
  · have hzero : (txStateOf s).remH = 0 := by rw [txStateOf, h]; rfl
    rw [txTickH, if_pos hzero, TickAndWrite.tickH_of_idle pt h, emissionOfMotor_of_idle pt (m := .horizontal) h]
    rfl
  · have hne : (txStateOf s).remH ≠ 0 := ArithLaws.counter_toInt_ne_zero h
    rw [txTickH, if_neg hne, TickAndWrite.tickH_of_active pt h, emissionOfMotor_of_active pt (m := .horizontal) h]
    simp [txStateOf, lookup_nextIndex, ArithLaws.nextIndex_toNat, ArithLaws.countDown_toInt h, Operations.nextOf,
      Motor.axis, motorSense]

theorem txTickV_eq (pt : PhaseTable) (s : State) :
    txTickV pt (txStateOf s) =
      (txStateOf (tickV pt s), emissionOfMotor pt s .verticalLeft ++ emissionOfMotor pt s .verticalRight) := by
  by_cases h : s.remV = 0
  · have hzero : (txStateOf s).remV = 0 := by rw [txStateOf, h]; rfl
    rw [txTickV, if_pos hzero, TickAndWrite.tickV_of_idle pt h, emissionOfMotor_of_idle pt (m := .verticalLeft) h,
      emissionOfMotor_of_idle pt (m := .verticalRight) h]
    rfl
  · have hne : (txStateOf s).remV ≠ 0 := ArithLaws.counter_toInt_ne_zero h
    rw [txTickV, if_neg hne, TickAndWrite.tickV_of_active pt h, emissionOfMotor_of_active pt (m := .verticalLeft) h,
      emissionOfMotor_of_active pt (m := .verticalRight) h]
    simp [txStateOf, lookup_nextIndex, ArithLaws.nextIndex_toNat, ArithLaws.countDown_toInt h, Operations.nextOf,
      Motor.axis, motorSense, Int.sub_eq_add_neg]

/-- The horizontal half touches nothing the vertical events are computed from. -/
theorem vertical_emissions_tickH (pt : PhaseTable) (s : State) :
    emissionOfMotor pt (tickH pt s) .verticalLeft = emissionOfMotor pt s .verticalLeft ∧
    emissionOfMotor pt (tickH pt s) .verticalRight = emissionOfMotor pt s .verticalRight := by
  obtain ⟨hrem, hidx1, hidx2, -⟩ := TickLaws.tickH_frame pt s
  exact ⟨emissionOfMotor_congr pt (m := .verticalLeft) hrem hidx1,
    emissionOfMotor_congr pt (m := .verticalRight) hrem hidx2⟩

/-- The source's tick is the cycle level's. -/
theorem txApply_tick (pt : PhaseTable) (s : State) :
    txApply pt .tick (txStateOf s) = (txStateOf (tick pt s), Motor.all.flatMap (emissionOfMotor pt s)) := by
  obtain ⟨hleft, hright⟩ := vertical_emissions_tickH pt s
  rw [txApply, txTickH_eq, txTickV_eq, hleft, hright]
  simp [Motor.all, tick]

/-- The source's write of a counter. -/
def txMove : Axis → Int → TxOp
  | .h, steps => .moveH steps
  | .v, steps => .moveV steps

/-- The source's write that an operation carries, if any. -/
def txWrites (i : Instr) : List TxOp :=
  match hostWrite i with
  | none => []
  | some (a, v) => [txMove a v.toInt]

/-- An operation is the source's tick, if it has one, and then the source's write, if it carries one (43_cycle_ops R117). -/
theorem txOpsOf_eq (i : Instr) : txOpsOf i = (if hasTick i then [.tick] else []) ++ txWrites i := by
  cases i <;> rfl

theorem txRun_tickPart (i : Instr) (s : State) :
    txRun Config.phaseTable (if hasTick i then [.tick] else []) (txStateOf s) =
      (txStateOf (Operations.tickPart i s), emissionsOf Config.phaseTable i s) := by
  rw [Operations.tickPart, emissionsOf]
  split
  · simp [txRun, txApply_tick]
  · rfl

theorem txRun_writePart (i : Instr) (s : State) :
    txRun Config.phaseTable (txWrites i) (txStateOf s) = (txStateOf (Operations.writePart i s), []) := by
  rw [txWrites, Operations.writePart]
  split
  · rfl
  · next a v _ => cases a <;> rfl

theorem txRun_append (pt : PhaseTable) (ops later : List TxOp) {t u v : TxState} {es fs : List Emission}
    (hops : txRun pt ops t = (u, es)) (hlater : txRun pt later u = (v, fs)) :
    txRun pt (ops ++ later) t = (v, es ++ fs) := by
  induction ops generalizing t es with
  | nil =>
    cases hops
    exact hlater
  | cons op ops ih =>
    obtain ⟨rfl, rfl⟩ := Prod.mk.inj hops
    rw [List.cons_append, txRun, ih rfl]
    simp

/-- Every operation but RESET is its source operations, on counters, indices and events. -/
theorem txRun_txOpsOf {i : Instr} {s t : State} (h : exec i s = .next t) (hi : isReset i = false) :
    txRun Config.phaseTable (txOpsOf i) (txStateOf s) = (txStateOf t, pinEmissions t) := by
  rw [pinEmissions_exec h, txOpsOf_eq,
    txRun_append _ _ _ (txRun_tickPart i s) (txRun_writePart i _), List.append_nil]
  rw [Operations.exec_eq_parts hi] at h
  cases h
  rfl

/-- Settles O52: by the two parts of each operation; RESET leaves the source's initial state. -/
theorem eachOperationIsItsTransactions : Obligations.EachOperationIsItsTransactions := by
  intro i s
  obtain ⟨t, h⟩ := Encoding.exec_completes i s
  refine ⟨t, h, fun hi => (txRun_txOpsOf h hi).symm, fun hi => ?_⟩
  obtain rfl := Operations.eq_reset_of_isReset hi
  cases h
  exact ⟨rfl, rfl⟩

/-- The state reached and the events shown are the source's, by the operations the words stand for. -/
def FollowsSource (s : State) (ws : List InputWord) (t : State) (es : List Emission) : Prop :=
  (txStateOf t, es) = txRun Config.phaseTable (ws.flatMap fun w => txOpsOf (decode w)) (txStateOf s)

theorem followsSource_cons {s t u : State} {w : InputWord} {ws r : List InputWord} {es : List Emission}
    (hw : isReset (decode w) = false) (h : exec (decode w) { s with inputs := r } = .next t)
    (hlater : FollowsSource t ws u es) : FollowsSource s (w :: ws) u (pinEmissions t ++ es) :=
  (txRun_append _ _ _ (txRun_txOpsOf h hw) hlater.symm).symm

/-- Settles O53: by induction over the words, each word its own source operations. -/
theorem everyRunIsATransactionRun : Obligations.EveryRunIsATransactionRun := fun _ _ _ hin hws =>
  Edges.run_induction (R := FollowsSource) (fun _ => rfl)
    (fun _ _ _ _ _ _ _ hw h hlater => followsSource_cons hw h hlater) hin hws

/-- The operation that performs one source operation. -/
def instrOf : TxOp → Instr
  | .moveH steps => .movh (BitVec.ofInt 32 steps)
  | .moveV steps => .movv (BitVec.ofInt 32 steps)
  | .tick => .tick

theorem isReset_instrOf (op : TxOp) : isReset (instrOf op) = false := by
  cases op <;> rfl

/-- An operand in the range of `int32` is kept. -/
theorem txOpsOf_instrOf {op : TxOp} (h : txOpInRange op = true) : txOpsOf (instrOf op) = [op] := by
  cases op with
  | moveH steps => rw [instrOf, txOpsOf, Words.toInt_ofInt_of_inRange h]
  | moveV steps => rw [instrOf, txOpsOf, Words.toInt_ofInt_of_inRange h]
  | tick => rfl

theorem txOpsOf_words {ops : List TxOp} (h : ∀ op ∈ ops, txOpInRange op = true) :
    ((ops.map fun op => encode (instrOf op)).flatMap fun w => txOpsOf (decode w)) = ops := by
  rw [List.flatMap_map]
  calc ops.flatMap (fun op => txOpsOf (decode (encode (instrOf op)))) = ops.flatMap fun op => [op] :=
        List.flatMap_congr fun op hop => by rw [Encoding.decode_encode, txOpsOf_instrOf (h op hop)]
    _ = ops := List.flatMap_singleton' ops

/-- Settles O54: the canonical word of each source operation's own operation, and O53 for the run on them. -/
theorem everyTransactionRunIsARun : Obligations.EveryTransactionRunIsARun := by
  intro ops s rest hops
  have hreset : ∀ w ∈ ops.map fun op => encode (instrOf op), isReset (decode w) = false := by
    intro w hw
    obtain ⟨op, -, rfl⟩ := List.mem_map.mp hw
    rw [Encoding.decode_encode, isReset_instrOf]
  obtain ⟨t, hrun, hrest, hsource⟩ := everyRunIsATransactionRun _ rest
    { s with inputs := (ops.map fun op => encode (instrOf op)) ++ rest } rfl hreset
  rw [txOpsOf_words (List.all_eq_true.mp hops)] at hsource
  exact ⟨_, List.length_map _, hreset, t, hrun, hrest, hsource⟩

/-! The step function on the raw word. -/

/-- R116's horizontal block on a result whose horizontal registers are the old ones with the strobe cleared. -/
theorem edgeHorizontal_eq (pt : PhaseTable) {s r : State} (es : List Emission) (hrem : r.remH = s.remH) (hidx : r.idx0 = s.idx0)
    (hemit : r.emit0 = false) :
    edgeHorizontal pt s ⟨r, es⟩ = ⟨tickH pt r, es ++ emissionOfMotor pt s .horizontal⟩ := by
  by_cases h : s.remH = 0
  · have hzero : ¬ s.remH.toInt ≠ 0 := by rw [h]; decide
    rw [edgeHorizontal, if_neg hzero, TickAndWrite.tickH_of_idle pt (hrem.trans h),
      emissionOfMotor_of_idle pt (m := .horizontal) h, List.append_nil, ← hemit]
  · rw [edgeHorizontal, if_pos (ArithLaws.counter_toInt_ne_zero h), TickAndWrite.tickH_of_active pt (by rwa [hrem]),
      emissionOfMotor, if_neg (show s.rem Motor.horizontal.axis ≠ 0 from h), hrem, hidx, ← ArithLaws.dir_eq_sgn h]
    rw [motorSense, Int.one_mul]
    rfl

/-- R116's vertical block, likewise. -/
theorem edgeVertical_eq (pt : PhaseTable) {s r : State} (es : List Emission) (hrem : r.remV = s.remV)
    (hidx1 : r.idx1 = s.idx1) (hidx2 : r.idx2 = s.idx2) (hemit1 : r.emit1 = false) (hemit2 : r.emit2 = false) :
    edgeVertical pt s ⟨r, es⟩ =
      ⟨tickV pt r, es ++ (emissionOfMotor pt s .verticalLeft ++ emissionOfMotor pt s .verticalRight)⟩ := by
  by_cases h : s.remV = 0
  · have hzero : ¬ s.remV.toInt ≠ 0 := by rw [h]; decide
    have hcleared : { r with emit1 := false, emit2 := false } = r := by
      cases r
      cases hemit1
      cases hemit2
      rfl
    rw [edgeVertical, if_neg hzero, TickAndWrite.tickV_of_idle pt (hrem.trans h),
      emissionOfMotor_of_idle pt (m := .verticalLeft) h, emissionOfMotor_of_idle pt (m := .verticalRight) h,
      List.append_nil, List.append_nil, hcleared]
  · rw [edgeVertical, if_pos (ArithLaws.counter_toInt_ne_zero h), TickAndWrite.tickV_of_active pt (by rwa [hrem]),
      emissionOfMotor, emissionOfMotor, if_neg (show s.rem Motor.verticalLeft.axis ≠ 0 from h),
      if_neg (show s.rem Motor.verticalRight.axis ≠ 0 from h), hrem, hidx1, hidx2, ← ArithLaws.dir_eq_sgn h]
    rw [motorSense, motorSense, Int.one_mul, Int.neg_one_mul]
    rfl

/-- A tick sets every strobe anew. -/
theorem tick_clearEmits (s : State) : tick Config.phaseTable s.clearEmits = tick Config.phaseTable s := by
  have hclear := StepLaws.exec_tick s.clearEmits
  have htick := StepLaws.exec_tick s
  obtain ⟨hinputs, hundriven, hresets⟩ := TickLaws.tick_frame Config.phaseTable s
  obtain ⟨kinputs, kundriven, kresets⟩ := TickLaws.tick_frame Config.phaseTable s.clearEmits
  refine state_eq_of_fields (fun a => ?_) (fun m => ?_) (kinputs.trans hinputs.symm) (kundriven.trans hundriven.symm)
    (kresets.trans hresets.symm)
  · exact Operations.exec_rem_congr hclear htick rfl rfl rfl rfl (rem_clearEmits s a)
  · obtain ⟨hidx, hemit, hcoil⟩ :=
      Operations.exec_motor_congr hclear htick rfl rfl rfl (rem_clearEmits s m.axis) (idx_clearEmits s m)
    exact ⟨hidx, hcoil (.inr (coil_clearEmits s m)), hemit⟩

/-- R116's two tick blocks on the cleared strobes are the tick, with its events. -/
theorem edge_tick (s : State) :
    edgeVertical Config.phaseTable s (edgeHorizontal Config.phaseTable s ⟨s.clearEmits, []⟩) =
      ⟨tick Config.phaseTable s, Motor.all.flatMap (emissionOfMotor Config.phaseTable s)⟩ := by
  obtain ⟨hrem, hidx1, hidx2, -, -, hemit1, hemit2, -⟩ := TickLaws.tickH_frame Config.phaseTable s.clearEmits
  rw [edgeHorizontal_eq (s := s) (r := s.clearEmits) _ _ rfl rfl rfl,
    edgeVertical_eq (s := s) _ _ hrem hidx1 hidx2 hemit1 hemit2, ← tick, tick_clearEmits]
  simp [Motor.all]

/-- R116's write block is the write of the word's operation. -/
theorem edgeWrite_eq {w : InputWord} (hw : w[35] = false) (t : State) (es : List Emission) :
    edgeWrite w ⟨t, es⟩ = ⟨Operations.writePart (decode w) t, es⟩ := by
  rw [edgeWrite, Operations.writePart, Words.hostWrite_decode, hw]
  cases w[33] with
  | false => rfl
  | true => cases w[32] <;> rfl

/-- R116 on a word that is no reset: the two parts of its operation, with its events. -/
theorem stepFunction_eq_parts {w : InputWord} (hw : w[35] = false) (drawn : Motor → Pattern) (s : State) :
    stepFunction Config.phaseTable drawn s w =
      ⟨Operations.writePart (decode w) (Operations.tickPart (decode w) s), emissionsOf Config.phaseTable (decode w) s⟩ := by
  have htick : hasTick (decode w) = w[34] := by rw [Words.hasTick_decode, hw, Bool.not_false, Bool.and_true]
  rw [← edgeWrite_eq hw, Operations.tickPart, emissionsOf, htick, stepFunction, hw]
  cases w[34] with
  | false => rfl
  | true => exact congrArg (edgeWrite w) (edge_tick s)

/-- Settles O13: a reset draws the lines its number draws; any other word is the two parts of its operation. -/
theorem stepEqualsTheStepFunction : Obligations.StepEqualsTheStepFunction := by
  intro s w rest hin
  obtain ⟨t, hexec⟩ := Encoding.exec_completes (decode w) { s with inputs := rest }
  refine ⟨Config.coilReset (s.resets + 1), t, (MoveRequest.step_of_inputs_cons hin).trans hexec, ?_⟩
  cases hw : w[35] with
  | true =>
    rw [Operations.eq_reset_of_isReset ((Words.isReset_decode w).trans hw)] at hexec
    cases hexec
    rw [stepFunction, hw]
    rfl
  | false =>
    rw [stepFunction_eq_parts hw, pinEmissions_exec hexec]
    rw [Operations.exec_eq_parts ((Words.isReset_decode w).trans hw)] at hexec
    cases hexec
    rfl

end Sys2Proof.Proofs.Transactions
